-- ==== Sys2Proof/Word.lean ====
section
/-!
DEFINITION. The engine's value types and their plainest arithmetic (spec 00_scope.md R9, R10).

Every number of the engine is unsigned. Addition, subtraction, multiplication and exclusive or on
`Word` are `BitVec`'s own, which are taken modulo 2^64 (40_primitives.md R100 to R103).
-/

namespace Sys2Proof

/-- `u64` (R9): lanes, byte count, command words, beats, digests. -/
abbrev Word := BitVec 64

/-- `u8` (R9): one byte of the stream. -/
abbrev Byte := BitVec 8

/-- `u32` (R9): the seed. -/
abbrev Seed := BitVec 32

/-- The length field of an UPDATE header (00_scope.md R7 `LEN_W`, 30_encoding.md R73). -/
abbrev Len := BitVec 60

end Sys2Proof
end

