-- ==== Sys2Proof/Machine/Operands.lean ====
section
/-!
DEFINITION. Every operand form of the engine: the fields of a header word (30_encoding.md R71 to
R77), the bytes of a payload beat (R78) and the little-endian stream reads (40_primitives.md R107).
-/

namespace Sys2Proof.Machine

/-- The opcode of a header word, `w[63:60]` (R71). -/
def opcodeOf (w : Word) : BitVec 4 := w.extractLsb' 60 4

/-- An INIT header's seed, `w[31:0]` (R72, R77). -/
def seedOf (w : Word) : Seed := w.extractLsb' 0 32

/-- An INIT header's reserved bits, `w[59:32]` (R72, R76). -/
def initReservedOf (w : Word) : BitVec 28 := w.extractLsb' 32 28

/-- `w[59:0]`: an UPDATE header's length `n` (R73), a DIGEST header's reserved bits (R74, R76). -/
def lenOf (w : Word) : Len := w.extractLsb' 0 60

/-- `zext_64` of a seed (R11, R77). -/
def zextSeed (seed : Seed) : Word := seed.setWidth 64

/-- `zext_64` of a byte (R11, R107). -/
def zextByte (b : Byte) : Word := b.setWidth 64

/-- `zext_64(n)` of a chunk length (R77); 2^64 and more, which no header can carry, wrap (R132). -/
def zextLen (n : Nat) : Word := BitVec.ofNat 64 n

/-- `ceil(n/8)`, the beats that carry `n` bytes (R73, R78, R81). -/
def beatCount (n : Nat) : Nat := (n + 7) / 8

/-- Byte `i` of a beat, bits `[8*i+7 : 8*i]` (R78). -/
def beatByte (w : Word) (i : Nat) : Byte := w.extractLsb' (8 * i) 8

/-- The eight bytes of a beat in stream order, as the decoder appends them (R85). -/
def beatBytes (w : Word) : List Byte :=
  [beatByte w 0, beatByte w 1, beatByte w 2, beatByte w 3,
   beatByte w 4, beatByte w 5, beatByte w 6, beatByte w 7]

/-- `ReadLE(b, off, n)`: the sum over `k < n` of `zext_64(b[off+k]) * 2^(8k)`, a left shift by `8k`
(R13, R107). Every caller has checked `off + n ≤ len(b)`, so the default byte 0 is never read (R107). -/
def readLE (b : List Byte) (off : Nat) : Nat → Word
  | 0 => 0
  | k + 1 => readLE b off k + zextByte (b.getD (off + k) 0) <<< (8 * k)

end Sys2Proof.Machine
end

