-- ==== Sys2Proof/Syntax.lean ====
section
/-!
DEFINITION. The engine's commands: one constructor per row of spec/opcode_table.json, with the
operands its rule gives it.
-/

namespace Sys2Proof

/-- A complete command. HASH is no constructor: it is a pseudo-command with no row and no encoding
(30_encoding.md R88), see Machine/Pseudo.lean. -/
inductive Instr where
  /-- INIT: start a hash with a seed (41_init.md R120). -/
  | init (seed : Seed)
  /-- UPDATE: consume one chunk; `hdr` is the header word, which carries the length in `hdr[59:0]`
  and which an error reports, and `chunk` the bytes of its payload (42_update.md R130). -/
  | update (hdr : Word) (chunk : List Byte)
  /-- DIGEST: return the digest and start again with the same seed (43_digest.md R150). -/
  | digest
  deriving DecidableEq, Repr

end Sys2Proof
end

