-- ==== Sys2Proof/WellFormed.lean ====
section
/-!
DEFINITION. Which terms of `Instr` are commands of the encoding (30_encoding.md R72 to R74).
-/

namespace Sys2Proof

/-- UPDATE needs a header with UPDATE's opcode whose length field is the chunk's length (R73, R130);
INIT and DIGEST are well formed whatever their operands, since a `Seed` is 32 bits wide (R72). -/
def Instr.wellFormed : Instr → Bool
  | .init _ => true
  | .update hdr chunk =>
      decide (Machine.opcodeOf hdr = 0b0010#4) && decide (chunk.length = (Machine.lenOf hdr).toNat)
  | .digest => true

end Sys2Proof
end

