-- ==== Sys2Proof/Decode.lean ====
section
/-!
DEFINITION. The decoder, total on every word stream, and after it the encoder, both written from
30_encoding.md R71 to R86.
-/

namespace Sys2Proof

open Machine

/-! ### The opcode table -/

/-- One row of spec/opcode_table.json: a header `w` is the row's when `w & mask = match` (R86). -/
structure OpcodeRow where
  mnemonic : String
  pattern : Word
  mask : Word
  deriving DecidableEq, Repr

/-- The table of R86. -/
def opcodeTable : List OpcodeRow :=
  [⟨"INIT", 0x1000000000000000#64, 0xFFFFFFFF00000000#64⟩,
   ⟨"UPDATE", 0x2000000000000000#64, 0xF000000000000000#64⟩,
   ⟨"DIGEST", 0x3000000000000000#64, 0xFFFFFFFFFFFFFFFF#64⟩]

/-- Does a header word match a row (R86)? -/
def rowMatches (r : OpcodeRow) (w : Word) : Bool := decide (w &&& r.mask = r.pattern)

/-! ### Decoding -/

/-- What a header word says by itself. The last two raise ERR_ILLEGAL_COMMAND (R202). -/
inductive Header where
  | init (seed : Seed)
  | update (n : Len)
  | digest
  /-- An opcode 0000 or 0100 to 1111 (R75). -/
  | reservedOpcode
  /-- INIT with a bit of `w[59:32]` set, or DIGEST with a bit of `w[59:0]` set (R76). -/
  | reservedBits
  deriving DecidableEq, Repr

/-- The header cases of the decoder, in its order (R85, R205): the opcode, then the reserved bits. -/
def decodeHeader (w : Word) : Header :=
  if opcodeOf w = 0b0001#4 then
    if initReservedOf w = 0#28 then .init (seedOf w) else .reservedBits
  else if opcodeOf w = 0b0010#4 then .update (lenOf w)
  else if opcodeOf w = 0b0011#4 then
    if lenOf w = 0#60 then .digest else .reservedBits
  else .reservedOpcode

/-- The chunk of `n` bytes that the beats `d 0, d 1, …` carry:
`b[j] = d_(j div 8)[8*(j mod 8)+7 : 8*(j mod 8)]` (R78). Padding is never looked at (R79). -/
def chunkOf (n : Nat) (d : Nat → Word) : List Byte :=
  (List.range n).map fun j => beatByte (d (j / 8)) (j % 8)

/-- The command whose header is `w` and whose payload beats are `d 0, d 1, …`; none where the header
is illegal. -/
def decodeWith (w : Word) (d : Nat → Word) : Option Instr :=
  match decodeHeader w with
  | .init seed => some (.init seed)
  | .update n => some (.update w (chunkOf n.toNat d))
  | .digest => some .digest
  | .reservedOpcode => none
  | .reservedBits => none

/-- How many payload beats follow a header, told from the header alone (R81). -/
def payloadBeats (w : Word) : Nat :=
  match decodeHeader w with
  | .update n => beatCount n.toNat
  | _ => 0

/-- What the head of a word stream holds. -/
inductive Decoded where
  /-- A whole command, and the words after it. -/
  | command (i : Instr) (rest : List Word)
  /-- A word that encodes no command: a one-word command that raises ERR_ILLEGAL_COMMAND (R75, R76). -/
  | illegal (w : Word) (rest : List Word)
  /-- No header, or fewer beats than the header gives (R233). -/
  | incomplete
  deriving DecidableEq, Repr

/-- The decoder over a stream of words, total on any of them (R81, R85). -/
def decode : List Word → Decoded
  | [] => .incomplete
  | w :: ws =>
    match decodeWith w (fun k => ws.getD k 0) with
    | none => .illegal w ws
    | some i =>
      if payloadBeats w ≤ ws.length then .command i (ws.drop (payloadBeats w)) else .incomplete

/-- The host's reading of one table row: the words are `w`'s successive 64-bit groups, the header
first, and every bit from `nbits` on is 0. -/
def decodeTableWord (nbits w : Nat) : Option Instr :=
  decodeWith (BitVec.ofNat 64 (w % 2 ^ nbits))
    (fun k => BitVec.ofNat 64 ((w % 2 ^ nbits) >>> (64 * (k + 1))))

/-! ### Encoding -/

/-- `INIT seed` (R72). -/
def initHeader (seed : Seed) : Word := 0b0001#4 ++ 0#28 ++ seed

/-- The header of an UPDATE of `n` bytes (R73). -/
def updateHeader (n : Len) : Word := 0b0010#4 ++ n

/-- `DIGEST` (R74). -/
def digestHeader : Word := 0b0011#4 ++ 0#60

/-- Beat `k` of a chunk, its padding bytes 0 (R78, R87). -/
def packBeat (chunk : List Byte) (k : Nat) : Word :=
  readLE ((chunk.drop (8 * k)).take 8 ++ List.replicate 8 0) 0 8

/-- The `ceil(n/8)` beats of a chunk (R78). -/
def packBeats (chunk : List Byte) : List Word :=
  (List.range (beatCount chunk.length)).map (packBeat chunk)

/-- The words of a command, the header first (R72 to R74, R78). -/
def encode : Instr → List Word
  | .init seed => [initHeader seed]
  | .update hdr chunk => hdr :: packBeats chunk
  | .digest => [digestHeader]

/-- `UPDATE <bytes>` as the assembler writes it: the header's length is the chunk's (R87). -/
def mkUpdate (chunk : List Byte) : Instr :=
  .update (updateHeader (BitVec.ofNat 60 chunk.length)) chunk

end Sys2Proof
end

