-- ==== Sys2Proof/Config.lean ====
section
/-!
DEFINITION. What one implementation or platform fixes and the spec leaves OPEN (00_scope.md R7,
92_eei_decisions.md D11, D12, D19), and what the spec leaves unsaid about reset.

Each is an opaque constant: nothing in Lean can evaluate it, so a statement holds for every value.
"At least 1" (R7) is built in by naming the depth less one.
-/

namespace Sys2Proof

/-- `RESP_DEPTH − 1`, any natural number. Assumption log 1. -/
opaque Config.respDepthLessOne : Nat

/-- `CMD_DEPTH − 1`, any natural number. Assumption log 1. -/
opaque Config.cmdDepthLessOne : Nat

/-- `N_ENGINES − 1`, any natural number. Assumption log 1. -/
opaque Config.nEnginesLessOne : Nat

/-- `RESP_DEPTH`: the response queue's capacity, at least 1 (R7, D11). -/
def Config.respDepth : Nat := Config.respDepthLessOne + 1

/-- `CMD_DEPTH`: the command queue's capacity, at least 1 (R7, D12). -/
def Config.cmdDepth : Nat := Config.cmdDepthLessOne + 1

/-- `N_ENGINES`: how many independent engines a platform holds, at least 1 (R7, D19). -/
def Config.nEngines : Nat := Config.nEnginesLessOne + 1

/-- Whether a hardware reset also drops the words that stand in the command queue, taken in but not
yet consumed. R230 and R39 list what reset does and do not speak of them. Assumption log 4. -/
opaque Config.resetDropsQueuedWords : Bool

end Sys2Proof
end

