-- ==== Sys2Proof/Machine/State.lean ====
section
/-!
DEFINITION. The machine's state, plain data (10_state.md R20), its reasons to stop and its value
right after reset (R39).

The engine has no address space and no memory (R36, R50): no field holds one.
-/

namespace Sys2Proof.Machine

/-- The command sequencer `S.seq` (R29). -/
inductive Sequencer where
  /-- The next word is a header. -/
  | idle
  /-- An UPDATE payload is being received: its header, the beats still to come, the bytes so far. -/
  | collect (hdr : Word) (need : Nat) (got : List Byte)
  deriving DecidableEq, Repr

/-- The codes of a response record (30_encoding.md R82). Code `0b11` is never produced: it has no
constructor. -/
inductive RespCode where
  | digestOk
  | errIllegalCommand
  | errNotInitialised
  deriving DecidableEq, Repr

/-- A response record (R82). -/
structure Resp where
  code : RespCode
  value : Word
  deriving DecidableEq, Repr

/-- What the host does at the engine's ports (30_encoding.md R70, 70_reset_and_hazards.md R240). -/
inductive HostAct where
  /-- Present a word on CMD_IN. -/
  | send (w : Word)
  /-- Take the head record from RESP_OUT. -/
  | take
  /-- Raise RST. -/
  | rst
  /-- Do nothing: the engine makes its step. -/
  | pass
  deriving DecidableEq, Repr

/-- The hashing fields of `S`, from `S.seed` to `S.pendingCount` (R20). -/
structure HashState where
  /-- `S.seed` (R23). -/
  seed : Seed
  /-- `S.v1` (R22). -/
  v1 : Word
  /-- `S.v2` (R22). -/
  v2 : Word
  /-- `S.v3` (R22). -/
  v3 : Word
  /-- `S.v4` (R22). -/
  v4 : Word
  /-- `S.totalLength` (R24). -/
  totalLength : Word
  /-- `S.buf`: the pending bytes, oldest first, and no cell beyond them (R25). -/
  buf : List Byte
  /-- `S.pendingCount`, a 5-bit register (R26). -/
  pendingCount : BitVec 5
  deriving DecidableEq, Repr

/-- The engine's state and its ports. -/
structure State where
  /-- `S.initialised` (R28). -/
  initialised : Bool
  /-- `S.seed` to `S.pendingCount` (R20). -/
  hash : HashState
  /-- `S.seq` (R29). -/
  seq : Sequencer
  /-- `S.respQ`, its head first (R30). -/
  respQ : List Resp
  /-- The words CMD_IN has taken in and no step has consumed, oldest first (R70, R235).
  Assumption log 15. -/
  cmdIn : List Word
  /-- The model's own: what the host does next, in order; see Machine/HostPort.lean. Assumption log 5. -/
  host : List HostAct
  /-- The model's own: the records the host has taken from RESP_OUT, oldest first. Assumption log 5. -/
  taken : List Resp
  deriving DecidableEq, Repr

/-- Reasons to stop with a fault. There are none: the algorithm is total (60_exceptions.md R200), an
error is a response record after which the engine goes on (R207), and a held step waits (R234). So
no one raises a fault, and nothing is unsafe about it. Assumption log 12. -/
inductive Fault where
  deriving DecidableEq, Repr

/-- Reasons to refuse. -/
inductive Refusal where
  /-- Raised only by an arm of `exec` whose command has no meaning yet; no arm is one. Safe. -/
  | notModelled (mnemonic : String)
  deriving DecidableEq, Repr

/-- The hashing fields right after reset. R39 gives them no value and lets no rule read them before
an INIT writes them; the zeros are the model's. DESIGN CHOICE, unsafe: assumption log 2. -/
def HashState.blank : HashState :=
  { seed := 0, v1 := 0, v2 := 0, v3 := 0, v4 := 0, totalLength := 0, buf := [], pendingCount := 0 }

/-- Right after reset (R39), with a host that has sent nothing, taken nothing and plans nothing. -/
def State.reset : State :=
  { initialised := false, hash := HashState.blank, seq := .idle, respQ := [],
    cmdIn := [], host := [], taken := [] }

end Sys2Proof.Machine
end

