-- ==== Sys2Proof/Machine/Flags.lean ====
section
/-!
DEFINITION. Every flag of the engine. `S.initialised` is the only one: no command writes a condition
code, and overflow sets nothing (10_state.md R28, R32).
-/

namespace Sys2Proof.Machine

/-- INIT sets the flag (R28, R120). -/
def State.setInitialised (s : State) : State := { s with initialised := true }

/-- The test UPDATE and DIGEST start with (60_exceptions.md R203). -/
def State.ready (s : State) : Bool := s.initialised

end Sys2Proof.Machine
end

