-- ==== Sys2Proof/Machine/Ops.lean ====
section
/-!
DEFINITION. The operations every command shares: consuming a word, answering on RESP_OUT, raising an
error (the engine's one kind of exception, 60_exceptions.md R204), and hardware reset.
-/

namespace Sys2Proof.Machine

/-- What one step answers. -/
abbrev Result := Host.Outcome State Fault Refusal

/-! ### Response records -/

/-- The two code bits (30_encoding.md R82). -/
def codeBits : RespCode → BitVec 2
  | .digestOk => 0b00#2
  | .errIllegalCommand => 0b01#2
  | .errNotInitialised => 0b10#2

/-- A record as RESP_OUT carries it: `code = r[65:64]`, `value = r[63:0]` (R82). -/
def respBits (r : Resp) : BitVec 66 := codeBits r.code ++ r.value

/-- Has `S.respQ` room for one more record, fewer than `RESP_DEPTH` (30_encoding.md R85)? -/
def State.hasRoom (s : State) : Bool := decide (s.respQ.length < Config.respDepth)

/-- `emit(code, value)`: append a record at the tail (00_scope.md R14, 10_state.md R30). -/
def State.emit (code : RespCode) (value : Word) (s : State) : State :=
  { s with respQ := s.respQ ++ [{ code := code, value := value }] }

/-- Write the hashing fields, from `S.seed` to `S.pendingCount` (R20), and nothing else. -/
def State.setHash (h : HashState) (s : State) : State := { s with hash := h }

/-! ### Consuming words -/

/-- The decoder's part of a command's last word: the word at the head of CMD_IN is consumed (10_state.md
R31) and the next one is a header (30_encoding.md R85). -/
def State.endCommand (s : State) : State := { s with cmdIn := s.cmdIn.tail, seq := .idle }

/-- The decoder's part of a word after which payload beats are still to come (R85). -/
def State.collectMore (hdr : Word) (need : Nat) (got : List Byte) (s : State) : State :=
  { s with cmdIn := s.cmdIn.tail, seq := .collect hdr need got }

/-! ### Answering -/

/-- End the command with the effect `t` and one record; while `S.respQ` is full the step is held, so
the word is not accepted and nothing changes (R85, 70_reset_and_hazards.md R234). -/
def respond (code : RespCode) (value : Word) (t s : State) : Result :=
  if s.hasRoom then .next (t.endCommand.emit code value) else .next s

/-- `raise E(v)`: the command ends with one record `(E, v)` and with no change to any hashing field
or to `S.initialised` (R204). It saves nothing and goes nowhere (R207), and nothing returns from it
(R208). -/
def raise (e : RespCode) (v : Word) (s : State) : Result := respond e v s s

/-! ### Hardware reset -/

/-- RST (R230, R39): uninitialised, idle, no responses, hashing fields without a value (assumption log
2). What reset does to words still queued on CMD_IN is not said (assumption log 4). -/
def State.hardwareReset (s : State) : State :=
  { State.reset with
    cmdIn := if Config.resetDropsQueuedWords then [] else s.cmdIn
    host := s.host
    taken := s.taken }

end Sys2Proof.Machine
end

