-- ==== Sys2Proof/Machine/Primitives.lean ====
section
/-!
DEFINITION. The datapath's primitives and constants (40_primitives.md, 10_state.md R34, R35). Every
operation is reduced modulo 2^64 before the next (R109), which `Word`'s operations do by themselves.

Where one operand of a sum or a product is a constant it is written first, here and in the commands'
files: `P1 * x` for the spec's `x * P1`. It is the same value (R100, R102), and a kernel that compares
two states then meets the unknown operand first, and does not count up to the constant.
-/

namespace Sys2Proof.Machine

/-- PRIME64_1 (R34). The spec marks the five values as general knowledge:
assumption log 8. -/
def P1 : Word := 0x9E3779B185EBCA87#64
/-- PRIME64_2 (R34). -/
def P2 : Word := 0xC2B2AE3D27D4EB4F#64
/-- PRIME64_3 (R34). -/
def P3 : Word := 0x165667B19E3779F9#64
/-- PRIME64_4 (R34). -/
def P4 : Word := 0x85EBCA77C2B2AE63#64
/-- PRIME64_5 (R34). -/
def P5 : Word := 0x27D4EB2F165667C5#64

/-- `rotl64(x, r)` for `0 < r < 64`: `((x << r) mod 2^64) OR (x >> (64 − r))` (R104). -/
def rotl64 (x : Word) (r : Nat) : Word := (x <<< r) ||| (x >>> (64 - r))

/-- `round64(acc, w) = rotl64(acc + w * P2, 31) * P1` (R108). -/
def round64 (acc w : Word) : Word := P1 * rotl64 (acc + P2 * w) 31

/-- `mergeRound(h, v) = (h XOR round64(0, v)) * P1 + P4` (43_digest.md R154). -/
def mergeRound (h v : Word) : Word := P4 + P1 * (h ^^^ round64 0 v)

/-- The avalanche (43_digest.md R161). -/
def avalanche (h : Word) : Word :=
  let h := h ^^^ (h >>> 33)
  let h := P2 * h
  let h := h ^^^ (h >>> 29)
  let h := P3 * h
  h ^^^ (h >>> 32)

end Sys2Proof.Machine
end

