-- ==== Sys2Proof/Machine/Init.lean ====
section
/-!
DEFINITION. INIT (41_init.md).
-/

namespace Sys2Proof.Machine

/-- `init(seed)`: the post-init hashing fields (R121). -/
def initHash (seed : Seed) : HashState :=
  { seed := seed
    v1 := P1 + P2 + zextSeed seed
    v2 := P2 + zextSeed seed
    v3 := zextSeed seed
    v4 := zextSeed seed - P1
    totalLength := 0
    buf := []
    pendingCount := 0 }

/-- INIT (R120), accepted in every state (R122). -/
def execInit (seed : Seed) (s : State) : Result :=
  .next (s.endCommand.setInitialised.setHash (initHash seed))

end Sys2Proof.Machine
end

