-- ==== Sys2Proof/Machine/Digest.lean ====
section
/-!
DEFINITION. DIGEST: lane combination, tail mixing and the response (43_digest.md). The cursor `p` of
the tail phases is held as the bytes still unconsumed.
-/

namespace Sys2Proof.Machine

/-- Step 1, long branch (R152, R153). -/
def combineLanes (h : HashState) : Word :=
  mergeRound (mergeRound (mergeRound (mergeRound
    (rotl64 h.v1 1 + rotl64 h.v2 7 + rotl64 h.v3 12 + rotl64 h.v4 18) h.v1) h.v2) h.v3) h.v4

/-- Step 1, short branch (R155). -/
def seedStart (h : HashState) : Word := P5 + zextSeed h.seed

/-- Step 1 (R151): an unsigned test on `S.totalLength` alone. -/
def startValue (h : HashState) : Word :=
  if 32 ≤ h.totalLength.toNat then combineLanes h else seedStart h

/-- One 8-byte tail word (R157). -/
def mixTail8 (h : Word) (r : List Byte) : Word :=
  P4 + P1 * rotl64 (h ^^^ round64 0 (readLE r 0 8)) 27

/-- The 4-byte tail word (R158). -/
def mixTail4 (h : Word) (r : List Byte) : Word :=
  P3 + P2 * rotl64 (h ^^^ (P1 * readLE r 0 4)) 23

/-- One tail byte (R159). -/
def mixTail1 (h : Word) (r : List Byte) : Word :=
  P1 * rotl64 (h ^^^ (P5 * readLE r 0 1)) 11

/-- Phase 1 (R157): while at least 8 bytes remain. The first argument bounds the turns. -/
def tailPhase8 : Nat → Word × List Byte → Word × List Byte
  | 0, p => p
  | k + 1, p => if 8 ≤ p.2.length then tailPhase8 k (mixTail8 p.1 p.2, p.2.drop 8) else p

/-- Phase 2 (R158): once, when 4 to 7 bytes remain. -/
def tailPhase4 (p : Word × List Byte) : Word × List Byte :=
  if 4 ≤ p.2.length then (mixTail4 p.1 p.2, p.2.drop 4) else p

/-- Phase 3 (R159): while a byte remains. The first argument bounds the turns. -/
def tailPhase1 : Nat → Word × List Byte → Word × List Byte
  | 0, p => p
  | k + 1, p => if 1 ≤ p.2.length then tailPhase1 k (mixTail1 p.1 p.2, p.2.drop 1) else p

/-- `TailMix(h, buf)` (R160). -/
def tailMix (h : Word) (buf : List Byte) : Word :=
  (tailPhase1 buf.length (tailPhase4 (tailPhase8 buf.length (h, buf)))).1

/-- `digest(S)`: the value of steps 1 to 4 (R150, R156, R161). -/
def digestValue (h : HashState) : Word :=
  avalanche (tailMix (startValue h + h.totalLength) h.buf)

/-- DIGEST (R150): the answer and the re-initialisation are one step (R162, R163). -/
def execDigest (s : State) : Result :=
  if s.ready then
    respond .digestOk (digestValue s.hash) (s.setHash (initHash s.hash.seed)) s
  else raise .errNotInitialised digestHeader s

end Sys2Proof.Machine
end

