-- ==== Sys2Proof/Machine/Update.lean ====
section
/-!
DEFINITION. UPDATE, the stream buffer and the block mixer (42_update.md). The input cursor `p` of the
spec's text is held as the bytes still unconsumed, `b[p .. n)`.
-/

namespace Sys2Proof.Machine

/-- Write the four lanes (R22) and nothing else. -/
def setLanes (v1 v2 v3 v4 : Word) (h : HashState) : HashState :=
  { h with v1 := v1, v2 := v2, v3 := v3, v4 := v4 }

/-- `BlockMix(blk)` (R137, R138): each lane takes its own word of the block. -/
def blockMix (blk : List Byte) (h : HashState) : HashState :=
  setLanes
    (round64 h.v1 (readLE blk 0 8)) (round64 h.v2 (readLE blk 8 8))
    (round64 h.v3 (readLE blk 16 8)) (round64 h.v4 (readLE blk 24 8)) h

/-- Step 2 (R132): `totalLength += n`, modulo 2^64. -/
def countBytes (n : Nat) (h : HashState) : HashState :=
  { h with totalLength := h.totalLength + zextLen n }

/-- Step 3 (R133): buffer the whole chunk. -/
def shortPath (b : List Byte) (h : HashState) : HashState :=
  { h with buf := h.buf ++ b, pendingCount := BitVec.ofNat 5 (h.pendingCount.toNat + b.length) }

/-- Step 4 (R134): complete the pending block from the front of the chunk and mix it. Skipped when
nothing is pending (R143). -/
def fillPath (b : List Byte) (h : HashState) : HashState × List Byte :=
  if 0 < h.pendingCount.toNat then
    let k := 32 - h.pendingCount.toNat
    ({ blockMix (h.buf ++ b.take k) h with buf := [], pendingCount := 0 }, b.drop k)
  else (h, b)

/-- Step 5 (R135): mix 32-byte windows while 32 bytes remain. The first argument bounds the number of
turns; `directPath` gives it enough. -/
def directLoop : Nat → HashState → List Byte → HashState × List Byte
  | 0, h, r => (h, r)
  | k + 1, h, r =>
    if 32 ≤ r.length then directLoop k (blockMix (r.take 32) h) (r.drop 32) else (h, r)

/-- Step 5 (R135) on all that is left of the chunk. -/
def directPath (p : HashState × List Byte) : HashState × List Byte :=
  directLoop p.2.length p.1 p.2

/-- Step 6 (R136): keep the rest, 0 to 31 bytes. -/
def tailStore (p : HashState × List Byte) : HashState :=
  { p.1 with buf := p.2, pendingCount := BitVec.ofNat 5 p.2.length }

/-- `update(S, b)` on the hashing fields: the six steps of R130. -/
def updateHash (b : List Byte) (h : HashState) : HashState :=
  if b.length = 0 then h
  else if h.pendingCount.toNat + b.length < 32 then shortPath b (countBytes b.length h)
  else tailStore (directPath (fillPath b (countBytes b.length h)))

/-- UPDATE (R130), at the word that completes its payload. -/
def execUpdate (hdr : Word) (b : List Byte) (s : State) : Result :=
  if s.ready then .next (s.endCommand.setHash (updateHash b s.hash))
  else raise .errNotInitialised hdr s

end Sys2Proof.Machine
end

