-- ==== Sys2Proof/Machine/Dispatch.lean ====
section
/-!
DEFINITION. One arm per command: each calls its meaning. `exec i s` is the step of the word that
completes the command `i`, which stands at the head of CMD_IN (assumption log 9).
-/

namespace Sys2Proof.Machine

def exec (i : Instr) (s : State) : Host.Outcome State Fault Refusal :=
  match i with
  | .init seed => Sys2Proof.Machine.execInit seed s
  | .update hdr chunk => Sys2Proof.Machine.execUpdate hdr chunk s
  | .digest => Sys2Proof.Machine.execDigest s

end Sys2Proof.Machine
end

