-- ==== Sys2Proof/Machine/Sequencer.lean ====
section
/-!
DEFINITION. The decoding rule as a step of the engine (30_encoding.md R85): one word of CMD_IN is
accepted, or none is.
-/

namespace Sys2Proof.Machine

/-- The Idle case of R85, on the header `w` at the head of CMD_IN. -/
def acceptHeader (w : Word) (s : State) : Result :=
  match decodeHeader w with
  | .init seed => exec (.init seed) s
  | .update n =>
      if n.toNat = 0 then exec (.update w []) s
      else .next (s.collectMore w (beatCount n.toNat) [])
  | .digest => exec .digest s
  | .reservedOpcode => raise .errIllegalCommand w s
  | .reservedBits => raise .errIllegalCommand w s

/-- The Collect case of R85, on the beat `w` at the head of CMD_IN: it is never decoded (R80), and the
padding is dropped (R79). The blocks are mixed at the last beat (assumption log 10). -/
def acceptBeat (hdr : Word) (need : Nat) (got : List Byte) (w : Word) (s : State) : Result :=
  if need = 1 then exec (.update hdr ((got ++ beatBytes w).take (lenOf hdr).toNat)) s
  else .next (s.collectMore hdr (need - 1) (got ++ beatBytes w))

/-- The engine's step (R85). With no word presented it makes none and changes nothing (60_exceptions.md
R215, assumption log 3). -/
def engineStep (s : State) : Result :=
  match s.cmdIn with
  | [] => .next s
  | w :: _ =>
    match s.seq with
    | .idle => acceptHeader w s
    | .collect hdr need got => acceptBeat hdr need got w s

end Sys2Proof.Machine
end

