-- ==== Sys2Proof/Machine/HostPort.lean ====
section
/-!
DEFINITION. The host at the engine's three ports (30_encoding.md R70, 70_reset_and_hazards.md R240),
and who moves next. `s.host` lists what the host does, in order, one entry a step; any interleaving
of host and engine is some list (assumption log 5). With the list empty the engine moves.
-/

namespace Sys2Proof.Machine

/-- Has CMD_IN room for one more word, fewer than `CMD_DEPTH` (R235)? -/
def State.cmdHasRoom (s : State) : Bool := decide (s.cmdIn.length < Config.cmdDepth)

/-- The host presents `w`: it moves in behind the words already there; while the command queue is full
the host waits with it, and the engine moves (R235). -/
def hostSend (w : Word) (rest : List HostAct) (s : State) : Result :=
  if s.cmdHasRoom then .next { s with cmdIn := s.cmdIn ++ [w], host := rest } else engineStep s

/-- The host takes the head record of RESP_OUT, which removes it (10_state.md R30); from an empty queue
it gets nothing. -/
def hostTake (rest : List HostAct) (s : State) : Result :=
  match s.respQ with
  | [] => .next { s with host := rest }
  | r :: q => .next { s with respQ := q, taken := s.taken ++ [r], host := rest }

/-- The host raises RST (R230). -/
def hostRst (rest : List HostAct) (s : State) : Result :=
  .next { s with host := rest }.hardwareReset

/-- One move of the whole machine. -/
def machineStep (s : State) : Result :=
  match s.host with
  | [] => engineStep s
  | .send w :: rest => hostSend w rest s
  | .take :: rest => hostTake rest s
  | .rst :: rest => hostRst rest s
  | .pass :: rest => engineStep { s with host := rest }

/-- `s` with the command of header `w` and payload beats `d` about to run: the host does nothing, and
the command's last word is the next one the engine accepts. A one-word command is its header, taken
at Idle; of an UPDATE with a payload, all but the last beat have been collected. -/
def placeCommand (w : Word) (d : Nat → Word) (s : State) : State :=
  let beats := payloadBeats w
  if beats = 0 then { s with host := [], seq := .idle, cmdIn := w :: s.cmdIn.tail }
  else
    { s with
      host := []
      seq := .collect w 1 (chunkOf (8 * (beats - 1)) d)
      cmdIn := d (beats - 1) :: s.cmdIn.tail }

end Sys2Proof.Machine
end

