-- ==== Sys2Proof/Machine/Step.lean ====
section
/-!
DEFINITION. The step function and the host's way to place one command.
-/

namespace Sys2Proof.Machine

/-- One step of the machine: a move of the host or of the engine. -/
def step (s : State) : Host.Outcome State Fault Refusal := machineStep s

/-- `s` with the command whose bits are `w` (its words' successive 64-bit groups, the header first, every
bit from `nbits` on 0) as the one the next step runs (assumption log 6). -/
def State.withFetchWord (s : State) (nbits w : Nat) : State :=
  placeCommand (BitVec.ofNat 64 (w % 2 ^ nbits))
    (fun k => BitVec.ofNat 64 ((w % 2 ^ nbits) >>> (64 * (k + 1)))) s

end Sys2Proof.Machine
end

