-- ==== Sys2Proof/Machine/Pseudo.lean ====
section
/-!
DEFINITION. The pseudo-commands, which have no encoding of their own: HASH and the UPDATE of more
bytes than a header can count (30_encoding.md R88, 44_oneshot.md R180).
-/

namespace Sys2Proof.Machine

/-- The longest chunk of one UPDATE, 2^60−1 bytes (R73, R88). -/
def maxChunk : Nat := 2 ^ 60 - 1

/-- Cut `b` in order into chunks of at most `m` bytes; the first argument bounds the cuts. Where to cut
is assumption log 14. -/
def splitLoop (m : Nat) : Nat → List Byte → List (List Byte)
  | 0, b => [b]
  | k + 1, b => if b.length ≤ m then [b] else b.take m :: splitLoop m k (b.drop m)

/-- The chunks a long UPDATE is split into (R88). -/
def splitChunks (b : List Byte) : List (List Byte) := splitLoop maxChunk b.length b

/-- `UPDATE <bytes>`, split where it must be (R88). -/
def expandUpdate (b : List Byte) : List Instr := (splitChunks b).map mkUpdate

/-- `HASH <bytes>, <seed>` is `INIT <seed>; UPDATE <bytes>; DIGEST` (R88, R180). -/
def expandHash (b : List Byte) (seed : Seed) : List Instr :=
  .init seed :: (expandUpdate b ++ [.digest])

/-- The words of a command program, in order (R61). -/
def programWords (is : List Instr) : List Word := is.flatMap encode

/-- `hash(b, seed) = digest(update(init(seed), b))` (R180). -/
def hashOf (b : List Byte) (seed : Seed) : Word := digestValue (updateHash b (initHash seed))

end Sys2Proof.Machine
end

