-- ==== Sys2Proof/Machine/Assembler.lean ====
section
/-!
DEFINITION. The assembler (30_encoding.md R87, R88): source text to the words on CMD_IN. It is a tool
of the host, outside the engine. `none` is its refusal. What R87 leaves open about the text (blanks,
letter case, quotes inside a quoted text) is assumption log 7.
-/

namespace Sys2Proof.Machine

/-- The operand of `UPDATE` and `HASH` (R87). -/
inductive BytesExpr where
  /-- `x"616263"` -/
  | hex (bytes : List Byte)
  /-- `"abc"`, converted by UTF-8 -/
  | text (chars : List Char)
  /-- `rep(<bytes>, k)` -/
  | rep (e : BytesExpr) (k : Nat)
  deriving DecidableEq, Repr

/-- One line of a program (R87, R88). Seeds and raw words are the numbers as written: the assembler
checks their range. -/
inductive AsmLine where
  | blank
  | init (seed : Nat)
  | update (e : BytesExpr)
  | digest
  | word (value : Nat)
  | hash (e : BytesExpr) (seed : Nat)
  deriving DecidableEq, Repr

/-! ### Meaning of a line -/

/-- UTF-8, the external collaborator of R87. -/
def utf8 (chars : List Char) : List Byte :=
  chars.flatMap fun c => (String.utf8EncodeChar c).map (·.toBitVec)

/-- The bytes an operand stands for (R87). -/
def evalBytes : BytesExpr → List Byte
  | .hex bytes => bytes
  | .text chars => utf8 chars
  | .rep e k => (List.replicate k (evalBytes e)).flatten

/-- A seed outside 0 to 2^32−1 is refused, not truncated (R87, 90_conflicts.md C2). -/
def checkSeed (n : Nat) : Option Seed := if n < 2 ^ 32 then some (BitVec.ofNat 32 n) else none

/-- The words of one line (R87, R88). Refusing a raw word of 2^64 or more is the model's choice: assumption
log 7. -/
def assembleLine : AsmLine → Option (List Word)
  | .blank => some []
  | .init n => (checkSeed n).map fun seed => encode (.init seed)
  | .update e => some (programWords (expandUpdate (evalBytes e)))
  | .digest => some (encode .digest)
  | .word v => if v < 2 ^ 64 then some [BitVec.ofNat 64 v] else none
  | .hash e n => (checkSeed n).map fun seed => programWords (expandHash (evalBytes e) seed)

/-- The words of a program, one command a line, in order (R87). -/
def assemble : List AsmLine → Option (List Word)
  | [] => some []
  | l :: ls => do
    let ws ← assembleLine l
    let rest ← assemble ls
    return ws ++ rest

/-! ### Reading a line -/

/-- Blanks before a token. -/
def skipBlanks : List Char → List Char
  | [] => []
  | c :: cs => if c = ' ' ∨ c = '\t' ∨ c = '\r' then skipBlanks cs else c :: cs

/-- What follows a fixed text at the head of a line. -/
def afterText : List Char → List Char → Option (List Char)
  | [], cs => some cs
  | _ :: _, [] => none
  | p :: ps, c :: cs => if p = c then afterText ps cs else none

/-- A digit's value in a base up to 16. -/
def digitValue (base : Nat) (c : Char) : Option Nat :=
  let v := if '0' ≤ c ∧ c ≤ '9' then c.toNat - 48
    else if 'a' ≤ c ∧ c ≤ 'f' then c.toNat - 87
    else if 'A' ≤ c ∧ c ≤ 'F' then c.toNat - 55
    else base
  if v < base then some v else none

/-- The digits at the head of a line, read in `base` onto `acc`, and what follows them. -/
def readDigits (base : Nat) : List Char → Nat → Nat × List Char
  | [], acc => (acc, [])
  | c :: cs, acc =>
    match digitValue base c with
    | some v => readDigits base cs (base * acc + v)
    | none => (acc, c :: cs)

/-- At least one digit. -/
def readNumeral (base : Nat) : List Char → Option (Nat × List Char)
  | [] => none
  | c :: cs => (digitValue base c).map fun v => readDigits base cs v

/-- A decimal number or a `0x` hexadecimal one. R87 gives these two forms for the seed; that the count of
`rep` and the value of `.word` take them too is the model's choice. DESIGN CHOICE: assumption log 7. -/
def readNumber (cs : List Char) : Option (Nat × List Char) :=
  match skipBlanks cs with
  | '0' :: 'x' :: r => readNumeral 16 r
  | r => readNumeral 10 r

/-- Pairs of hexadecimal digits up to the closing quote. -/
def readHexBytes : List Char → Option (List Byte × List Char)
  | '"' :: r => some ([], r)
  | a :: b :: r => do
    let hi ← digitValue 16 a
    let lo ← digitValue 16 b
    let (bytes, rest) ← readHexBytes r
    return (BitVec.ofNat 8 (16 * hi + lo) :: bytes, rest)
  | _ => none

/-- The characters up to the closing quote. -/
def readQuoted : List Char → Option (List Char × List Char)
  | [] => none
  | c :: cs => if c = '"' then some ([], cs) else (readQuoted cs).map fun p => (c :: p.1, p.2)

/-- A bytes operand; the first argument bounds how deep `rep` is nested. -/
def readBytes : Nat → List Char → Option (BytesExpr × List Char)
  | 0, _ => none
  | k + 1, cs =>
    match skipBlanks cs with
    | 'x' :: '"' :: r => (readHexBytes r).map fun p => (.hex p.1, p.2)
    | '"' :: r => (readQuoted r).map fun p => (.text p.1, p.2)
    | 'r' :: 'e' :: 'p' :: '(' :: r => do
      let (e, r1) ← readBytes k r
      let r2 ← afterText [','] (skipBlanks r1)
      let (n, r3) ← readNumber r2
      let r4 ← afterText [')'] (skipBlanks r3)
      return (.rep e n, r4)
    | _ => none

/-- Nothing but blanks and a comment is left (R87). -/
def lineEnds (cs : List Char) : Bool :=
  match skipBlanks cs with
  | [] => true
  | c :: _ => decide (c = ';')

/-- The mnemonic at the head of a line, and what follows it. -/
def readMnemonic (name cs : List Char) : Option (List Char) := do
  let r ← afterText name cs
  match r with
  | [] => some []
  | c :: _ => if c = ' ' ∨ c = '\t' ∨ c = '\r' ∨ c = ';' then some r else none

/-- `INIT <seed>`; without an operand it is refused (R87). -/
def readInit (cs : List Char) : Option AsmLine := do
  let (n, r) ← readNumber (← readMnemonic ['I', 'N', 'I', 'T'] cs)
  if lineEnds r then some (.init n) else none

/-- `UPDATE <bytes>` (R87). -/
def readUpdate (cs : List Char) : Option AsmLine := do
  let (e, r) ← readBytes cs.length (← readMnemonic ['U', 'P', 'D', 'A', 'T', 'E'] cs)
  if lineEnds r then some (.update e) else none

/-- `DIGEST` (R87). -/
def readDigest (cs : List Char) : Option AsmLine := do
  let r ← readMnemonic ['D', 'I', 'G', 'E', 'S', 'T'] cs
  if lineEnds r then some .digest else none

/-- `.word <64-bit value>` (R87). -/
def readRawWord (cs : List Char) : Option AsmLine := do
  let (n, r) ← readNumber (← readMnemonic ['.', 'w', 'o', 'r', 'd'] cs)
  if lineEnds r then some (.word n) else none

/-- `HASH <bytes>, <seed>` (R88). -/
def readHash (cs : List Char) : Option AsmLine := do
  let (e, r) ← readBytes cs.length (← readMnemonic ['H', 'A', 'S', 'H'] cs)
  let (n, r') ← readNumber (← afterText [','] (skipBlanks r))
  if lineEnds r' then some (.hash e n) else none

/-- One source line (R87). A line with neither command nor comment, empty or of blanks, is read as no
words: the model's choice. DESIGN CHOICE: assumption log 7. -/
def readLine (line : List Char) : Option AsmLine :=
  let cs := skipBlanks line
  if lineEnds cs then some .blank
  else (readInit cs).orElse fun _ => (readUpdate cs).orElse fun _ => (readDigest cs).orElse fun _ =>
    (readRawWord cs).orElse fun _ => readHash cs

/-- The lines of a source text. -/
def splitLines : List Char → List (List Char)
  | [] => [[]]
  | c :: cs =>
    if c = '\n' then [] :: splitLines cs
    else
      match splitLines cs with
      | [] => [[c]]
      | l :: ls => (c :: l) :: ls

/-- A source text to its words: every line must be read, and every operand be in range (R87). -/
def assembleText (src : List Char) : Option (List Word) := do
  let lines ← (splitLines src).mapM readLine
  assemble lines

end Sys2Proof.Machine
end

