-- ==== Sys2Proof/Machine/Platform.lean ====
section
/-!
DEFINITION. A platform of `N_ENGINES` independent engines (60_exceptions.md R213, 20_memory.md R66):
each has its own state, its own ports and its own reset, and they share nothing. Assumption log 11.
-/

namespace Sys2Proof.Machine

/-- The engines of a platform; an engine's place in the list is the platform's, the engine does not
know it (R213). -/
structure Platform where
  engines : List State
  deriving DecidableEq, Repr

/-- Every engine right after its reset. -/
def platformReset : Platform := { engines := List.replicate Config.nEngines State.reset }

/-- Engine `k` makes its next move; which engine moves next is free (R66). -/
def platformStep (k : Nat) (p : Platform) : Platform :=
  match p.engines[k]? with
  | none => p
  | some s =>
    match step s with
    | .next t => { engines := p.engines.set k t }
    | .fault _ => p
    | .refused _ => p

end Sys2Proof.Machine
end

