-- ==== Sys2Proof/Machine/Run.lean ====
section
/-!
DEFINITION. Runs of the machine, in the words claims use.
-/

namespace Sys2Proof.Machine

/-- `k` steps of the machine, by the host's own definition of a run. -/
def runFor (k : Nat) (s : State) : Result := Host.Core.run Sys2Proof.core k s

/-- `s` with the words `ws` already taken in on CMD_IN and a host that does nothing more. -/
def State.loaded (ws : List Word) (s : State) : State := { s with host := [], cmdIn := ws }

/-- `s` with nothing on CMD_IN and a host about to send the words `ws` in order. -/
def State.sending (ws : List Word) (s : State) : State :=
  { s with host := ws.map HostAct.send, cmdIn := [] }

/-- The command program of a whole stream (70_reset_and_hazards.md R232): `INIT seed`, one UPDATE a
chunk, `DIGEST`. -/
def streamProgram (seed : Seed) (chunks : List (List Byte)) : List Instr :=
  .init seed :: (chunks.map mkUpdate ++ [.digest])

end Sys2Proof.Machine
end

