-- ==== Sys2Proof/Safety.lean ====
section
/-!
DEFINITION. What a claim about a run speaks of: the machine's invariant, when a step is held, and
when a run is over.
-/

namespace Sys2Proof.Machine

/-- The buffer holds exactly the bytes the count says (10_state.md R26); `pendingCount` is 5 bits wide,
so there are at most 31 (R25). -/
def HashState.Sized (h : HashState) : Prop := h.buf.length = h.pendingCount.toNat

/-- `S.pendingCount = S.totalLength mod 32` (R27). -/
def HashState.Counted (h : HashState) : Prop := h.pendingCount.toNat = h.totalLength.toNat % 32

/-- While a payload is collected: the header is an UPDATE's, at least one of its beats is still to come,
and the bytes so far are those of the beats received (R29, 30_encoding.md R85). -/
def Sequencer.Framed : Sequencer → Prop
  | .idle => True
  | .collect hdr need got =>
      opcodeOf hdr = 0b0010#4 ∧ 1 ≤ need ∧ need ≤ beatCount (lenOf hdr).toNat ∧
        got.length = 8 * (beatCount (lenOf hdr).toNat - need)

/-- The machine's invariant (R25 to R30, 70_reset_and_hazards.md R234, R235). -/
structure State.Inv (s : State) : Prop where
  sized : s.hash.Sized
  counted : s.initialised = true → s.hash.Counted
  framed : s.seq.Framed
  respFits : s.respQ.length ≤ Config.respDepth
  cmdFits : s.cmdIn.length ≤ Config.cmdDepth

/-- Would accepting the next word append a record: a DIGEST, an erroring header, or the word that ends
an UPDATE which raises ERR_NOT_INITIALISED (R234)? -/
def State.wouldRespond (s : State) : Bool :=
  match s.cmdIn with
  | [] => false
  | w :: _ =>
    match s.seq with
    | .idle =>
      match decodeHeader w with
      | .init _ => false
      | .update n => decide (n.toNat = 0) && !s.initialised
      | .digest => true
      | .reservedOpcode => true
      | .reservedBits => true
    | .collect _ need _ => decide (need = 1) && !s.initialised

/-- The next word is held (R234). -/
def State.Held (s : State) : Prop := s.wouldRespond = true ∧ Config.respDepth ≤ s.respQ.length

/-- The host has no word left to send. -/
def State.allSent (s : State) : Bool :=
  s.host.all fun a => match a with
    | .send _ => false
    | .take => true
    | .rst => true
    | .pass => true

/-- A run is over (R238): every word of the program has been accepted, no payload is open, and every
response has been taken, or may still be queued where the claim reads it there. -/
def State.RunOver (readsQueue : Bool) (s : State) : Prop :=
  s.allSent = true ∧ s.cmdIn = [] ∧ s.seq = .idle ∧ (readsQueue = true ∨ s.respQ = [])

end Sys2Proof.Machine
end

