-- ==== Sys2Proof/Certificates/Slice0/Obligations.lean ====
section
/-!
DEFINITION. The statements about the engine, for the provers. Each docstring names the rule of spec/
it formalises. A statement about the engine's step takes a state whose host does nothing
(`s.host = []`), so that the engine moves.
-/

open Sys2Proof Sys2Proof.Machine

/-! ### Encoding -/

/-- R72 to R74, R78, R81: decoding the words of a well-formed command gives it back with every
operand, and leaves the words after it. -/
def Obligations.DecodeOfEncodeIsTheCommand : Prop :=
  ∀ (i : Instr) (rest : List Word), i.wellFormed = true →
    decode (encode i ++ rest) = .command i rest

/-- R81, R86: a stream that decodes to a command starts with that command's own header, the command is
well formed, and exactly as many words are consumed as its encoding has. -/
def Obligations.DecodedCommandHasItsHeaderAndLength : Prop :=
  ∀ (w : Word) (ws : List Word) (i : Instr) (rest : List Word),
    decode (w :: ws) = .command i rest →
      i.wellFormed = true ∧ (encode i).head? = some w ∧
      (encode i).length ≤ ws.length + 1 ∧ rest = ws.drop ((encode i).length - 1)

/-- R78: the chunk is carried in `ceil(n/8)` beats, byte `j` in beat `j div 8` at bits
`[8*(j mod 8)+7 : 8*(j mod 8)]`, and is recovered from there. -/
def Obligations.PayloadByteLandsInItsBeat : Prop :=
  ∀ b : List Byte,
    (packBeats b).length = (b.length + 7) / 8 ∧
    (∀ j, j < b.length →
      ((packBeats b).getD (j / 8) 0).extractLsb' (8 * (j % 8)) 8 = b.getD j 0) ∧
    chunkOf b.length (fun k => (packBeats b).getD k 0) = b

/-- R89, T7: the spec's worked encodings, word by word. -/
def Obligations.SpecWordsDecode : Prop :=
  decode [0x1000000000000000#64] = .command (.init 0#32) [] ∧
  decode [0x100000000000ABCD#64] = .command (.init 0xABCD#32) [] ∧
  decode [0x3000000000000000#64] = .command .digest [] ∧
  decode [0x2000000000000003#64, 0x0000000000636261#64] =
    .command (.update 0x2000000000000003#64 [0x61#8, 0x62#8, 0x63#8]) [] ∧
  decode [0x1000000100000000#64] = .illegal 0x1000000100000000#64 [] ∧
  decode [0x3000000000000001#64] = .illegal 0x3000000000000001#64 []

/-- R86: a header matches at most one row of the table, opcodes 0000 and 0100 to 1111 match none, and
one that matches none raises ERR_ILLEGAL_COMMAND. -/
def Obligations.HeaderMatchesAtMostOneRow : Prop :=
  ∀ w : Word,
    (opcodeTable.filter fun r => rowMatches r w).length ≤ 1 ∧
    (w.extractLsb' 60 4 = 0#4 ∨ 4 ≤ (w.extractLsb' 60 4).toNat →
      ∀ r ∈ opcodeTable, rowMatches r w = false) ∧
    ((∀ r ∈ opcodeTable, rowMatches r w = false) →
      ∀ (s : State) (rest : List Word), s.host = [] → s.seq = .idle → s.cmdIn = w :: rest →
        s.respQ.length < Config.respDepth →
          step s = .next { s with
            cmdIn := rest, respQ := s.respQ ++ [{ code := .errIllegalCommand, value := w }] })

/-- R84, R86: a header decodes to a command exactly when a row of the table matches it, and to that row's
command. -/
def Obligations.HeaderDecodesByItsRow : Prop :=
  ∀ w : Word,
    (w &&& 0xFFFFFFFF00000000#64 = 0x1000000000000000#64 ↔
      decodeHeader w = .init (w.extractLsb' 0 32)) ∧
    (w &&& 0xF000000000000000#64 = 0x2000000000000000#64 ↔
      decodeHeader w = .update (w.extractLsb' 0 60)) ∧
    (w = 0x3000000000000000#64 ↔ decodeHeader w = .digest)

/-! ### Words, framing and steps -/

/-- R85: the decoder's cases, one word a step, and its hold (R85, R234); a held step of the model answers
the same state (assumption log 3). -/
def Obligations.WordIsTakenByItsDecoderCase : Prop :=
  ∀ (s : State) (w : Word) (rest : List Word), s.host = [] → s.cmdIn = w :: rest →
    (s.seq = .idle →
      (w.extractLsb' 60 4 = 0b0001#4 → w.extractLsb' 32 28 = 0#28 →
        step s = exec (.init (w.extractLsb' 0 32)) s) ∧
      (w.extractLsb' 60 4 = 0b0010#4 → w.extractLsb' 0 60 = 0#60 →
        step s = exec (.update w []) s) ∧
      (w.extractLsb' 60 4 = 0b0010#4 → w.extractLsb' 0 60 ≠ 0#60 →
        step s = .next { s with
          cmdIn := rest, seq := .collect w (((w.extractLsb' 0 60).toNat + 7) / 8) [] }) ∧
      (w.extractLsb' 60 4 = 0b0011#4 → w.extractLsb' 0 60 = 0#60 → step s = exec .digest s) ∧
      ((w.extractLsb' 60 4 = 0b0001#4 ∧ w.extractLsb' 32 28 ≠ 0#28) ∨
        (w.extractLsb' 60 4 = 0b0011#4 ∧ w.extractLsb' 0 60 ≠ 0#60) ∨
        w.extractLsb' 60 4 = 0#4 ∨ 4 ≤ (w.extractLsb' 60 4).toNat →
        step s = if s.respQ.length < Config.respDepth then
            .next { s with
              cmdIn := rest, respQ := s.respQ ++ [{ code := .errIllegalCommand, value := w }] }
          else .next s)) ∧
    (∀ hdr need got, s.seq = .collect hdr need got →
      let got' := got ++ [w.extractLsb' 0 8, w.extractLsb' 8 8, w.extractLsb' 16 8,
        w.extractLsb' 24 8, w.extractLsb' 32 8, w.extractLsb' 40 8, w.extractLsb' 48 8,
        w.extractLsb' 56 8]
      (need = 1 → step s = exec (.update hdr (got'.take (hdr.extractLsb' 0 60).toNat)) s) ∧
      (need ≠ 1 → step s = .next { s with cmdIn := rest, seq := .collect hdr (need - 1) got' })) ∧
    (s.wouldRespond = true → Config.respDepth ≤ s.respQ.length → step s = .next s)

/-- R31, R85: where the last word of a well-formed command stands at the head of CMD_IN, the step is
that command's, in that state: a one-word command at Idle; an UPDATE once its other beats are in. -/
def Obligations.StepRunsTheDecodedCommand : Prop :=
  ∀ (i : Instr) (s : State) (w : Word) (rest : List Word),
    i.wellFormed = true → s.host = [] → s.cmdIn = w :: rest →
      (s.seq = .idle → encode i = [w] → step s = exec i s) ∧
      (∀ (hdr : Word) (ws : List Word), encode i = hdr :: ws ++ [w] →
        s.seq = .collect hdr 1 (ws.flatMap beatBytes) → step s = exec i s)

/-- The command the decoder reads from a table word is the one the next step runs once the word is
placed (30_encoding.md R71 to R81; the placing is the model's, assumption log 6). -/
def Obligations.PlacedTableWordRunsItsCommand : Prop :=
  ∀ (s : State) (nbits w : Nat) (i : Instr), decodeTableWord nbits w = some i →
    step (s.withFetchWord nbits w) = exec i (s.withFetchWord nbits w)

/-- R80, R233: after an UPDATE header with `n > 0`, the next words are taken as payload whatever their
bits, until `ceil(n/8)` have come; with fewer, the engine waits in Collect, each step answering the same
state (assumption log 3). -/
def Obligations.WordsAfterUpdateHeaderArePayload : Prop :=
  ∀ (s : State) (hdr : Word) (ws rest : List Word), s.host = [] → s.seq = .idle →
    s.cmdIn = hdr :: ws ++ rest → hdr.extractLsb' 60 4 = 0b0010#4 →
    ws.length < ((hdr.extractLsb' 0 60).toNat + 7) / 8 →
      runFor (ws.length + 1) s = .next { s with
        cmdIn := rest
        seq := .collect hdr (((hdr.extractLsb' 0 60).toNat + 7) / 8 - ws.length)
          (ws.flatMap beatBytes) } ∧
      (rest = [] → ∀ k, runFor (ws.length + 1 + k) s = runFor (ws.length + 1) s)

/-- R79: two last beats that agree on the bytes of the chunk do the same, whatever the padding. -/
def Obligations.PaddingBytesAreIgnored : Prop :=
  ∀ (s : State) (hdr w w' : Word) (got : List Byte) (rest : List Word),
    s.host = [] → (Sequencer.collect hdr 1 got).Framed →
    (s.initialised = true ∨ s.respQ.length < Config.respDepth) →
    (∀ j, j < 8 → got.length + j < (lenOf hdr).toNat →
      w.extractLsb' (8 * j) 8 = w'.extractLsb' (8 * j) 8) →
      step { s with seq := .collect hdr 1 got, cmdIn := w :: rest } =
        step { s with seq := .collect hdr 1 got, cmdIn := w' :: rest }

/-- R57, R61, R81, R85: the word-by-word engine realises each command as one indivisible effect. Its
words, taken one a step, end in the state the command's meaning gives, with exactly them consumed. -/
def Obligations.CommandWordsRunTheCommand : Prop :=
  ∀ (i : Instr) (s : State) (rest : List Word), i.wellFormed = true →
    s.host = [] → s.seq = .idle → s.cmdIn = encode i ++ rest →
    s.respQ.length < Config.respDepth →
      ∃ t, runFor (encode i).length s = .next t ∧
        exec i { s with cmdIn := 0#64 :: rest } = .next t ∧ t.cmdIn = rest ∧ t.seq = .idle

/-! ### INIT -/

/-- R121: the post-init state, after INIT in any state and after a DIGEST; INIT changes nothing else
but that its word is consumed and the next one is a header. -/
def Obligations.InitWritesThePostInitState : Prop :=
  let post (seed : Seed) : HashState :=
    { seed := seed
      v1 := seed.zeroExtend 64 + 0x9E3779B185EBCA87#64 + 0xC2B2AE3D27D4EB4F#64
      v2 := seed.zeroExtend 64 + 0xC2B2AE3D27D4EB4F#64
      v3 := seed.zeroExtend 64
      v4 := seed.zeroExtend 64 - 0x9E3779B185EBCA87#64
      totalLength := 0#64, buf := [], pendingCount := 0#5 }
  (∀ (seed : Seed) (s : State),
    exec (.init seed) s = .next { s with
      initialised := true, hash := post seed, cmdIn := s.cmdIn.tail, seq := .idle }) ∧
  (∀ s : State, s.initialised = true → s.respQ.length < Config.respDepth →
    ∃ t, exec .digest s = .next t ∧ t.initialised = true ∧ t.hash = post s.hash.seed)

/-- R122: INIT is accepted whatever the state, discards the stream and reports nothing; uninitialised,
it is the only command that does not raise ERR_NOT_INITIALISED. -/
def Obligations.InitIsAcceptedInEveryState : Prop :=
  (∀ (seed : Seed) (s s' : State), ∃ t t',
    exec (.init seed) s = .next t ∧ exec (.init seed) s' = .next t' ∧
      t.initialised = true ∧ t.hash = t'.hash ∧ t.respQ = s.respQ) ∧
  (∀ (i : Instr) (s : State), s.initialised = false → s.respQ.length < Config.respDepth →
    ∃ t, exec i s = .next t ∧
      ((∀ v, t.respQ ≠ s.respQ ++ [{ code := .errNotInitialised, value := v }]) ↔
        ∃ seed, i = .init seed))

/-- R123: the lane table. -/
def Obligations.InitLaneTable : Prop :=
  ∀ s : State,
    (∃ t, exec (.init 0x00000000#32) s = .next t ∧
      t.hash.v1 = 0x60EA27EEADC0B5D6#64 ∧ t.hash.v2 = 0xC2B2AE3D27D4EB4F#64 ∧
      t.hash.v3 = 0x0000000000000000#64 ∧ t.hash.v4 = 0x61C8864E7A143579#64) ∧
    (∃ t, exec (.init 0x00000001#32) s = .next t ∧
      t.hash.v1 = 0x60EA27EEADC0B5D7#64 ∧ t.hash.v2 = 0xC2B2AE3D27D4EB50#64 ∧
      t.hash.v3 = 0x0000000000000001#64 ∧ t.hash.v4 = 0x61C8864E7A14357A#64) ∧
    (∃ t, exec (.init 0x0000ABCD#32) s = .next t ∧
      t.hash.v1 = 0x60EA27EEADC161A3#64 ∧ t.hash.v2 = 0xC2B2AE3D27D5971C#64 ∧
      t.hash.v3 = 0x000000000000ABCD#64 ∧ t.hash.v4 = 0x61C8864E7A14E146#64) ∧
    (∃ t, exec (.init 0xFFFFFFFF#32) s = .next t ∧
      t.hash.v1 = 0x60EA27EFADC0B5D5#64 ∧ t.hash.v2 = 0xC2B2AE3E27D4EB4E#64 ∧
      t.hash.v3 = 0x00000000FFFFFFFF#64 ∧ t.hash.v4 = 0x61C8864F7A143578#64)

/-! ### UPDATE -/

/-- R140 (R132 to R136): on an initialised engine UPDATE completes; with `q` pending bytes it mixes
exactly `floor((q+n)/32)` blocks, the `j`-th being bytes `32j` to `32j+31` of `S.buf ++ b`, keeps the
last `(q+n) mod 32` bytes, counts `n`, and changes nothing else but that its word is consumed. -/
def Obligations.UpdateMixesWholeBlocksInOrder : Prop :=
  ∀ (hdr : Word) (b : List Byte) (s : State), s.initialised = true → s.hash.Sized →
    let q := s.hash.pendingCount.toNat
    let n := b.length
    let data := s.hash.buf ++ b
    let mixed := (List.range ((q + n) / 32)).foldl
      (fun h j => blockMix ((data.drop (32 * j)).take 32) h) s.hash
    exec (.update hdr b) s = .next { s with
      cmdIn := s.cmdIn.tail
      seq := .idle
      hash := { mixed with
        totalLength := s.hash.totalLength + BitVec.ofNat 64 n
        buf := data.drop (32 * ((q + n) / 32))
        pendingCount := BitVec.ofNat 5 ((q + n) % 32) } }

/-- R131: an UPDATE of no bytes has no beats and changes no field of `S`. -/
def Obligations.EmptyUpdateChangesNothing : Prop :=
  ∀ (hdr : Word) (s : State), encode (.update hdr []) = [hdr] ∧
    (s.initialised = true →
      exec (.update hdr []) s = .next { s with cmdIn := s.cmdIn.tail, seq := .idle })

/-- R133: the short path appends all of the chunk, counts it, and leaves the lanes alone. -/
def Obligations.ShortUpdateOnlyBuffers : Prop :=
  ∀ (hdr : Word) (b : List Byte) (s : State), s.initialised = true → b ≠ [] →
    s.hash.pendingCount.toNat + b.length < 32 →
      ∃ t, exec (.update hdr b) s = .next t ∧
        t.hash.buf = s.hash.buf ++ b ∧
        t.hash.pendingCount.toNat = s.hash.pendingCount.toNat + b.length ∧
        t.hash.totalLength = s.hash.totalLength + BitVec.ofNat 64 b.length ∧
        t.hash.v1 = s.hash.v1 ∧ t.hash.v2 = s.hash.v2 ∧ t.hash.v3 = s.hash.v3 ∧
        t.hash.v4 = s.hash.v4 ∧ t.hash.seed = s.hash.seed ∧ t.respQ = s.respQ

/-- R141: UPDATE `a` and then UPDATE `c` leave the same `S` as UPDATE `a ++ c`, and so for any number
of chunks, with empty ones anywhere. -/
def Obligations.UpdatesConcatenate : Prop :=
  (∀ (ha hc hac : Word) (a c : List Byte) (s : State), s.initialised = true → s.hash.Sized →
    ∃ t u v, exec (.update ha a) s = .next t ∧ exec (.update hc c) t = .next u ∧
      exec (.update hac (a ++ c)) s = .next v ∧ u.hash = v.hash ∧
      u.initialised = v.initialised ∧ u.respQ = v.respQ) ∧
  (∀ (chunks : List (List Byte)) (h : HashState), h.Sized →
    chunks.foldl (fun h c => updateHash c h) h = updateHash chunks.flatten h)

/-- R137, R138: BlockMix gives each lane the round function of its own little-endian word, and writes
only the lanes; and the spec's example of it. -/
def Obligations.BlockMixRoundsEachLane : Prop :=
  (∀ (blk : List Byte) (h : HashState), blk.length = 32 →
    let word (k : Nat) : Word :=
      blk.getD (8 * k + 7) 0 ++ blk.getD (8 * k + 6) 0 ++ blk.getD (8 * k + 5) 0 ++
      blk.getD (8 * k + 4) 0 ++ blk.getD (8 * k + 3) 0 ++ blk.getD (8 * k + 2) 0 ++
      blk.getD (8 * k + 1) 0 ++ blk.getD (8 * k) 0
    let lane (v : Word) (k : Nat) : Word :=
      (v + word k * 0xC2B2AE3D27D4EB4F#64).rotateLeft 31 * 0x9E3779B185EBCA87#64
    blockMix blk h =
      { h with v1 := lane h.v1 0, v2 := lane h.v2 1, v3 := lane h.v3 2, v4 := lane h.v4 3 }) ∧
  blockMix ((List.range 32).map (BitVec.ofNat 8)) (initHash 0) =
    { initHash 0 with
      v1 := 0xF4B53B57406B5E99#64, v2 := 0xC3D34B511FC32561#64
      v3 := 0xCB26C007C8A1553F#64, v4 := 0x9A44D001A7F91C07#64 }

/-- R26, R27: after every command `S.pendingCount` is the buffer's length, below 32, and on an
initialised engine `S.totalLength mod 32`, if both held before it. -/
def Obligations.CommandsKeepThePendingCount : Prop :=
  ∀ (i : Instr) (s : State), s.hash.Sized → (s.initialised = true → s.hash.Counted) →
    ∃ t, exec i s = .next t ∧ t.hash.buf.length = t.hash.pendingCount.toNat ∧
      t.hash.pendingCount.toNat < 32 ∧
      (t.initialised = true → t.hash.pendingCount.toNat = t.hash.totalLength.toNat % 32)

/-- R186: no UPDATE of an initialised engine raises an error, and the lanes are first touched by the
UPDATE in which the count first becomes 32 or more, which mixes the block of the first 32 bytes, and
only that one where fewer than 64 have come. -/
def Obligations.LanesUntouchedBelow32Bytes : Prop :=
  ∀ (hdr : Word) (b : List Byte) (s : State), s.initialised = true →
    ∃ t, exec (.update hdr b) s = .next t ∧ t.respQ = s.respQ ∧
      (s.hash.Sized → s.hash.Counted → s.hash.totalLength.toNat < 32 →
        (s.hash.totalLength.toNat + b.length < 32 →
          t.hash.v1 = s.hash.v1 ∧ t.hash.v2 = s.hash.v2 ∧
          t.hash.v3 = s.hash.v3 ∧ t.hash.v4 = s.hash.v4) ∧
        (32 ≤ s.hash.totalLength.toNat + b.length → s.hash.totalLength.toNat + b.length < 64 →
          let m := blockMix ((s.hash.buf ++ b).take 32) s.hash
          t.hash.v1 = m.v1 ∧ t.hash.v2 = m.v2 ∧ t.hash.v3 = m.v3 ∧ t.hash.v4 = m.v4))

/-! ### DIGEST -/

/-- R152, R153, R156, R162, R163 (and R150, R151, R155, R161): on an initialised engine with room for a
record DIGEST completes; it answers the digest, returns to the post-init fields of the unchanged seed,
and changes nothing else but that its word is consumed. -/
def Obligations.DigestAnswersAndReinitialises : Prop :=
  ∀ s : State, s.initialised = true → s.respQ.length < Config.respDepth →
    let merge (h v : Word) : Word :=
      (h ^^^ ((v * 0xC2B2AE3D27D4EB4F#64).rotateLeft 31 * 0x9E3779B185EBCA87#64)) *
        0x9E3779B185EBCA87#64 + 0x85EBCA77C2B2AE63#64
    let sum : Word := s.hash.v1.rotateLeft 1 + s.hash.v2.rotateLeft 7 +
      s.hash.v3.rotateLeft 12 + s.hash.v4.rotateLeft 18
    let start : Word :=
      if s.hash.totalLength.toNat < 32 then s.hash.seed.zeroExtend 64 + 0x27D4EB2F165667C5#64
      else merge (merge (merge (merge sum s.hash.v1) s.hash.v2) s.hash.v3) s.hash.v4
    let h0 := tailMix (start + s.hash.totalLength) s.hash.buf
    let h1 := (h0 ^^^ (h0 >>> 33)) * 0xC2B2AE3D27D4EB4F#64
    let h2 := (h1 ^^^ (h1 >>> 29)) * 0x165667B19E3779F9#64
    exec .digest s = .next { s with
      cmdIn := s.cmdIn.tail
      seq := .idle
      hash := initHash s.hash.seed
      respQ := s.respQ ++ [{ code := .digestOk, value := h2 ^^^ (h2 >>> 32) }] }

/-- R157 to R160: the tail is consumed left to right: an 8-byte word while at least 8 bytes remain, a
4-byte word when 4 to 7 remain, a byte when 1 to 3 remain. -/
def Obligations.TailMixConsumesLeftToRight : Prop :=
  ∀ (h : Word) (r : List Byte),
    let word (n : Nat) : Word :=
      (List.range n).foldl (fun a k => a + (r.getD k 0).zeroExtend 64 * BitVec.twoPow 64 (8 * k)) 0
    (r = [] → tailMix h r = h) ∧
    (8 ≤ r.length → tailMix h r = tailMix
      ((h ^^^ ((word 8 * 0xC2B2AE3D27D4EB4F#64).rotateLeft 31 * 0x9E3779B185EBCA87#64)).rotateLeft 27
        * 0x9E3779B185EBCA87#64 + 0x85EBCA77C2B2AE63#64) (r.drop 8)) ∧
    (4 ≤ r.length → r.length < 8 → tailMix h r = tailMix
      ((h ^^^ (word 4 * 0x9E3779B185EBCA87#64)).rotateLeft 23
        * 0xC2B2AE3D27D4EB4F#64 + 0x165667B19E3779F9#64) (r.drop 4)) ∧
    (1 ≤ r.length → r.length < 4 → tailMix h r = tailMix
      ((h ^^^ (word 1 * 0x27D4EB2F165667C5#64)).rotateLeft 11 * 0x9E3779B185EBCA87#64) (r.drop 1))

/-- R108, R154, R161: the spec's worked values of the round, the merge and the avalanche. -/
def Obligations.MixersGiveTheSpecValues : Prop :=
  round64 0 0 = 0 ∧ round64 0 1 = 0x7F0E345BE3649CD2#64 ∧ round64 1 0 = 0xC2F5E54380000000#64 ∧
  round64 P1 P2 = 0x1B0917BC8762A770#64 ∧
  mergeRound 0 0 = 0x85EBCA77C2B2AE63#64 ∧ mergeRound 0 1 = 0x9D049A611F451521#64 ∧
  avalanche 0 = 0 ∧ avalanche 1 = 0x283A72A5B9AB93D3#64 ∧
  avalanche 0xFFFFFFFFFFFFFFFF#64 = 0x100AB62DAADD9289#64 ∧
  avalanche 0x0123456789ABCDEF#64 = 0xB84DA6F78DBF6DE2#64

/-- R165: a second DIGEST right after a first answers the digest of the empty input under the same
seed; for seed 0 that is `0xEF46DB3751D8E999`. `q` is what is queued by then: the first answer may
have been taken, and with a `RESP_DEPTH` of 1 must have been. -/
def Obligations.SecondDigestIsOfTheEmptyInput : Prop :=
  ∀ (s : State) (q : List Resp), s.initialised = true → s.respQ.length < Config.respDepth →
    q.length < Config.respDepth →
      ∃ t u, exec .digest s = .next t ∧ exec .digest { t with respQ := q } = .next u ∧
        u.respQ = q ++ [{ code := .digestOk, value := hashOf [] s.hash.seed }] ∧
        u.hash = initHash s.hash.seed ∧
        (s.hash.seed = 0#32 → hashOf [] s.hash.seed = 0xEF46DB3751D8E999#64)

/-- R164: on the short branch the digest does not depend on the lanes, and on either branch it does not
depend on `S.seq` or the command stream. -/
def Obligations.DigestDoesNotReadLanesWhenShort : Prop :=
  ∀ s s' : State, s.initialised = true → s'.initialised = true → s.respQ = s'.respQ →
    s.respQ.length < Config.respDepth →
    s.hash.seed = s'.hash.seed → s.hash.totalLength = s'.hash.totalLength →
    s.hash.buf = s'.hash.buf →
    (s.hash.totalLength.toNat < 32 ∨
      (s.hash.v1 = s'.hash.v1 ∧ s.hash.v2 = s'.hash.v2 ∧
        s.hash.v3 = s'.hash.v3 ∧ s.hash.v4 = s'.hash.v4)) →
      ∃ t t' r, exec .digest s = .next t ∧ exec .digest s' = .next t' ∧
        t.respQ = s.respQ ++ [r] ∧ t'.respQ = t.respQ ∧ t.hash = t'.hash

/-- R184: after a DIGEST, `UPDATE b; DIGEST` answers the one-shot hash of `b` under the same seed. `q`
is what is queued by then, as in `SecondDigestIsOfTheEmptyInput`. -/
def Obligations.ReuseAfterDigestHashesAfresh : Prop :=
  ∀ (hdr : Word) (b : List Byte) (s : State) (q : List Resp), s.initialised = true →
    s.respQ.length < Config.respDepth → q.length < Config.respDepth →
      ∃ t u v, exec .digest s = .next t ∧ exec (.update hdr b) { t with respQ := q } = .next u ∧
        exec .digest u = .next v ∧
        v.respQ = q ++ [{ code := .digestOk, value := hashOf b s.hash.seed }]

/-! ### Whole streams -/

/-- R180, R181: the words of `HASH b, seed`, in any state between commands, answer one record, the
hash of `b`, discard the stream in progress and leave `S = init(seed)`, for `b` of any length. -/
def Obligations.HashAnswersTheOneShotHash : Prop :=
  ∀ (b : List Byte) (seed : Seed) (s : State) (rest : List Word), s.host = [] → s.seq = .idle →
    s.respQ.length < Config.respDepth →
    let ws := programWords (expandHash b seed)
    runFor ws.length { s with cmdIn := ws ++ rest } = .next { s with
      initialised := true
      hash := initHash seed
      cmdIn := rest
      respQ := s.respQ ++ [{ code := .digestOk, value := hashOf b seed }] }

/-- R182: every way of cutting the input into chunks, empty ones among them, gives the same answer as
the one-shot hash of the whole, and leaves the same state. -/
def Obligations.ChunkingDoesNotChangeTheDigest : Prop :=
  ∀ (seed : Seed) (chunks : List (List Byte)) (s : State),
    (∀ c ∈ chunks, c.length < 2 ^ 60) →
    s.host = [] → s.seq = .idle → s.respQ.length < Config.respDepth →
    let streamed := programWords (streamProgram seed chunks)
    let oneShot := programWords (expandHash chunks.flatten seed)
    ∃ t, runFor streamed.length { s with cmdIn := streamed } = .next t ∧
      runFor oneShot.length { s with cmdIn := oneShot } = .next t ∧
      t.respQ = s.respQ ++ [{ code := .digestOk, value := hashOf chunks.flatten seed }]

/-- R88: the UPDATEs a long `UPDATE b` is split into carry at most 2^60−1 bytes each, in order, and
leave the state of a single UPDATE of `b`. -/
def Obligations.SplitUpdateEqualsOneUpdate : Prop :=
  ∀ (b : List Byte) (h : HashState), h.Sized →
    (∀ i ∈ expandUpdate b, i.wellFormed = true) ∧
    (splitChunks b).flatten = b ∧ (∀ c ∈ splitChunks b, c.length ≤ 2 ^ 60 - 1) ∧
    (splitChunks b).foldl (fun h c => updateHash c h) h = updateHash b h

/-- R87, C2: the assembler encodes a seed from 0 to 2^32−1 by R72 and refuses one outside. It places a raw
word below 2^64; that it refuses one of 2^64 or more is the model's choice (assumption log 7). -/
def Obligations.AssemblerRefusesWideNumbers : Prop :=
  ∀ n : Nat,
    (n < 2 ^ 32 → assembleLine (.init n) = some [BitVec.ofNat 64 (0x1000000000000000 + n)]) ∧
    (2 ^ 32 ≤ n → assembleLine (.init n) = none ∧ ∀ e, assembleLine (.hash e n) = none) ∧
    (n < 2 ^ 64 → assembleLine (.word n) = some [BitVec.ofNat 64 n]) ∧
    (2 ^ 64 ≤ n → assembleLine (.word n) = none)

/-! ### Errors -/

/-- R202, R75, R76: which headers raise ERR_ILLEGAL_COMMAND: they are one word long, report themselves
and have no other effect; no other header does, and no beat does. -/
def Obligations.IllegalHeaderIsReported : Prop :=
  ∀ (s : State) (w : Word) (rest : List Word), s.host = [] → s.cmdIn = w :: rest →
    s.respQ.length < Config.respDepth →
    let illegal : Prop :=
      w.extractLsb' 60 4 = 0#4 ∨ 4 ≤ (w.extractLsb' 60 4).toNat ∨
      (w.extractLsb' 60 4 = 1#4 ∧ w.extractLsb' 32 28 ≠ 0#28) ∨
      (w.extractLsb' 60 4 = 3#4 ∧ w.extractLsb' 0 60 ≠ 0#60)
    (s.seq = .idle → illegal →
      step s = .next { s with
        cmdIn := rest, respQ := s.respQ ++ [{ code := .errIllegalCommand, value := w }] }) ∧
    (s.seq ≠ .idle ∨ ¬illegal →
      ∃ t, step s = .next t ∧
        ∀ v, t.respQ ≠ s.respQ ++ [{ code := .errIllegalCommand, value := v }])

/-- R203, R204: on an uninitialised engine UPDATE and DIGEST append the record with their header word and
change no hashing field; an UPDATE is first received whole, so the words after it stay framed. INIT
raises nothing. -/
def Obligations.UninitialisedCommandIsReported : Prop :=
  ∀ s : State, s.initialised = false → s.respQ.length < Config.respDepth →
    let reported (w : Word) (rest : List Word) : State := { s with
      cmdIn := rest, seq := .idle
      respQ := s.respQ ++ [{ code := .errNotInitialised, value := w }] }
    (∀ hdr b, exec (.update hdr b) s = .next (reported hdr s.cmdIn.tail)) ∧
    (exec .digest s = .next (reported 0x3000000000000000#64 s.cmdIn.tail)) ∧
    (∀ seed, ∃ t, exec (.init seed) s = .next t ∧ t.respQ = s.respQ) ∧
    (∀ (hdr : Word) (ws rest : List Word), s.host = [] → s.seq = .idle →
      s.cmdIn = hdr :: ws ++ rest → hdr.extractLsb' 60 4 = 0b0010#4 →
      ws.length = ((hdr.extractLsb' 0 60).toNat + 7) / 8 →
        runFor (ws.length + 1) s = .next (reported hdr rest))

/-- R205: a header's errors are tested in order, a reserved opcode, reserved bits, then not initialised,
and the first that holds is the one reported. -/
def Obligations.FirstErrorThatHoldsIsReported : Prop :=
  ∀ (s : State) (w : Word) (rest : List Word), s.host = [] → s.seq = .idle →
    s.cmdIn = w :: rest → s.respQ.length < Config.respDepth →
    let op := w.extractLsb' 60 4
    let reservedOpcode : Prop := op = 0#4 ∨ 4 ≤ op.toNat
    let reservedBits : Prop :=
      (op = 1#4 ∧ w.extractLsb' 32 28 ≠ 0#28) ∨ (op = 3#4 ∧ w.extractLsb' 0 60 ≠ 0#60)
    let notReady : Prop := s.initialised = false ∧ (op = 3#4 ∨ (op = 2#4 ∧ w.extractLsb' 0 60 = 0#60))
    ∃ t, step s = .next t ∧
      (reservedOpcode ∨ reservedBits →
        t.respQ = s.respQ ++ [{ code := .errIllegalCommand, value := w }]) ∧
      (¬reservedOpcode → ¬reservedBits → notReady →
        t.respQ = s.respQ ++ [{ code := .errNotInitialised, value := w }]) ∧
      (¬reservedOpcode → ¬reservedBits → ¬notReady →
        ∀ e v, e ≠ .digestOk → t.respQ ≠ s.respQ ++ [{ code := e, value := v }])

/-- R83: DIGEST appends exactly one record, a command that raises an error exactly one, INIT and UPDATE
none when they succeed. -/
def Obligations.WhichCommandsRespond : Prop :=
  ∀ s : State, s.respQ.length < Config.respDepth →
    (∀ seed, ∃ t, exec (.init seed) s = .next t ∧ t.respQ = s.respQ) ∧
    (∀ hdr b, ∃ t, exec (.update hdr b) s = .next t ∧
      (s.initialised = true → t.respQ = s.respQ) ∧
      (s.initialised = false → ∃ r, t.respQ = s.respQ ++ [r])) ∧
    (∃ t r, exec .digest s = .next t ∧ t.respQ = s.respQ ++ [r]) ∧
    (∀ e v, ∃ t r, raise e v s = .next t ∧ t.respQ = s.respQ ++ [r])

/-- R82: the bits of a record, and that code `0b11` is never produced. -/
def Obligations.RecordBitsAreCodeAndValue : Prop :=
  ∀ r : Resp,
    (respBits r).extractLsb' 0 64 = r.value ∧
    (respBits r).extractLsb' 64 2 ≠ 0b11#2 ∧
    (r.code = .digestOk ↔ (respBits r).extractLsb' 64 2 = 0b00#2) ∧
    (r.code = .errIllegalCommand ↔ (respBits r).extractLsb' 64 2 = 0b01#2) ∧
    (r.code = .errNotInitialised ↔ (respBits r).extractLsb' 64 2 = 0b10#2)

/-- Every state has a next state; and with no word presented the engine changes no state at all, at Idle
as in Collect (R215). That nothing stops the machine, and that a step with no word presented or a held
one answers the same state, are the model's readings of 60_exceptions.md (assumption logs 12 and 3). -/
def Obligations.EveryStepAnswersANextState : Prop :=
  (∀ s : State, ∃ t, step s = .next t) ∧
  (∀ s : State, s.host = [] → s.cmdIn = [] → step s = .next s)

/-! ### Ports, holds and reset -/

/-- R30: the host's take removes the head record and changes nothing else. -/
def Obligations.TakeRemovesTheHeadRecord : Prop :=
  ∀ (s : State) (rest : List HostAct) (r : Resp) (q : List Resp), s.host = .take :: rest →
    s.respQ = r :: q →
      step s = .next { s with host := rest, respQ := q, taken := s.taken ++ [r] }

/-- R234: a step that would append a record is held while the queue is full: the word is not accepted
and every later word waits, for good if the host never takes a record; once the host takes one, the
step is made and its record is appended. A held step answers the same state (assumption log 3). -/
def Obligations.FullResponseQueueHoldsTheStep : Prop :=
  ∀ s : State, s.Held →
    (s.host = [] → ∀ k, runFor k s = .next s) ∧
    (∀ r q, s.host = [.take] → s.respQ = r :: q → s.respQ.length = Config.respDepth →
      ∃ t r', runFor 2 s = .next t ∧ t.respQ = q ++ [r'] ∧ t.taken = s.taken ++ [r] ∧
        t.cmdIn = s.cmdIn.tail)

/-- R234, R85: a step that is not held accepts exactly the word at the head of CMD_IN. -/
def Obligations.UnheldWordIsAccepted : Prop :=
  ∀ (s : State) (w : Word) (rest : List Word), s.host = [] → s.cmdIn = w :: rest → ¬s.Held →
    ∃ t, step s = .next t ∧ t.cmdIn = rest ∧ t.host = [] ∧ t.taken = s.taken

/-- R235: a word the host sends moves in behind the others while fewer than `CMD_DEPTH` are there, and
otherwise waits with the host while the engine makes its step. -/
def Obligations.SentWordWaitsForRoom : Prop :=
  ∀ (s : State) (w : Word) (rest : List HostAct), s.host = .send w :: rest →
    (s.cmdIn.length < Config.cmdDepth →
      step s = .next { s with host := rest, cmdIn := s.cmdIn ++ [w] }) ∧
    (Config.cmdDepth ≤ s.cmdIn.length →
      ∃ t, step { s with host := [] } = .next t ∧ step s = .next { t with host := s.host })

/-- R235, R8: the command queue's depth decides only when words move. If the words, all taken in
beforehand, are all consumed, then a host that sends them one by one through a queue of any depth
ends in the same state. -/
def Obligations.CommandDepthNeverChangesTheResult : Prop :=
  ∀ (ws : List Word) (s t : State), runFor ws.length (s.loaded ws) = .next t → t.cmdIn = [] →
    runFor (2 * ws.length) (s.sending ws) = .next t

/-- R61, R180, R231, R238: from reset, a host that sends the words of `HASH b, seed` reaches the end of
its run with exactly one record, the hash of `b`, whatever the depths of the queues. -/
def Obligations.SessionFromResetDeliversTheHash : Prop :=
  ∀ (b : List Byte) (seed : Seed),
    let ws := programWords (expandHash b seed)
    ∃ t, runFor (2 * ws.length) (State.reset.sending ws) = .next t ∧ t.RunOver true ∧
      t.respQ = [{ code := .digestOk, value := hashOf b seed }] ∧ t.initialised = true ∧
      t.hash = initHash seed

/-- R239: with room for every answer, every word on CMD_IN is consumed, one a step. -/
def Obligations.QueuedWordsAreConsumed : Prop :=
  ∀ s : State, s.host = [] → s.respQ.length + s.cmdIn.length ≤ Config.respDepth →
    ∃ t, runFor s.cmdIn.length s = .next t ∧ t.cmdIn = [] ∧ s.respQ <+: t.respQ ∧
      t.respQ.length ≤ Config.respDepth

/-- R230: RST takes effect as one step: uninitialised, between commands, no records; a payload in
progress is dropped. The words still queued are kept or dropped (the model's, assumption log 4). -/
def Obligations.HardwareResetIsOneStep : Prop :=
  ∀ (s : State) (rest : List HostAct), s.host = .rst :: rest →
    ∃ t, step s = .next t ∧ t.initialised = false ∧ t.seq = .idle ∧ t.respQ = [] ∧
      t.host = rest ∧ t.taken = s.taken ∧ (t.cmdIn = [] ∨ t.cmdIn = s.cmdIn)

/-- R39: before an INIT writes them no rule reads the hashing fields. Two machines that differ only in
the hashing fields of an uninitialised engine make the same moves, and agree in every field once one
is initialised. So no claim can rest on the values the model gives them at reset. -/
def Obligations.UninitialisedHashingFieldsAreNeverRead : Prop :=
  ∀ (s : State) (h : HashState) (k : Nat), s.initialised = false →
    ∃ t t', runFor k s = .next t ∧ runFor k { s with hash := h } = .next t' ∧
      t' = { t with hash := t'.hash } ∧ (t.initialised = true → t' = t)

/-- R39, R33: what the spec states of the state after reset. -/
def Obligations.ResetStateIsUninitialisedIdleEmpty : Prop :=
  State.reset.initialised = false ∧ State.reset.seq = .idle ∧ State.reset.respQ = [] ∧
    Sys2Proof.core.reset = State.reset

/-! ### Invariants and whole-machine rules -/

/-- The invariant holds right after reset. For the sequencer and the response queue that is R39; for the
buffer and the pending count, which R39 leaves without a value, it is the model's choice of reset values
(assumption log 2), and for the command queue assumption log 15. -/
def Obligations.ResetMeetsTheInvariant : Prop := State.reset.Inv

/-- R26, R27, R29, R234, R235: every move of the host and of the engine keeps the invariant. After an RST
its clause on the buffer and the pending count rests on the model's own reset values (assumption log
2); the moves of the host are those of assumption log 5. -/
def Obligations.StepKeepsTheInvariant : Prop :=
  ∀ s t : State, s.Inv → step s = .next t → t.Inv

/-- R28: only an INIT sets the flag, and only hardware reset clears it. -/
def Obligations.FlagSetByInitClearedByReset : Prop :=
  (∀ (i : Instr) (s t : State), exec i s = .next t →
    t.initialised = (match i with
      | .init _ => true
      | .update _ _ => s.initialised
      | .digest => s.initialised)) ∧
  (∀ s t : State, step s = .next t → t.initialised = false → s.initialised = true →
    ∃ rest, s.host = .rst :: rest) ∧
  (∀ s t : State, step s = .next t → t.initialised = true → s.initialised = false →
    s.seq = .idle ∧ ∃ w rest seed, s.cmdIn = w :: rest ∧ decodeHeader w = .init seed ∧
      t.hash = initHash seed)

/-- R23: of the commands only INIT writes the seed; a step, of the engine or of the host, that changes it
takes an INIT header at Idle, or is an RST; and after an RST the seed is the model's own reset value
(assumption log 2). -/
def Obligations.OnlyInitWritesTheSeed : Prop :=
  (∀ (i : Instr) (s t : State), exec i s = .next t →
    t.hash.seed = (match i with
      | .init seed => seed
      | .update _ _ => s.hash.seed
      | .digest => s.hash.seed)) ∧
  (∀ s t : State, step s = .next t → t.hash.seed ≠ s.hash.seed →
    (s.seq = .idle ∧ ∃ w rest, s.cmdIn = w :: rest ∧ decodeHeader w = .init t.hash.seed) ∨
    ∃ rest, s.host = .rst :: rest) ∧
  (∀ (s : State) (rest : List HostAct), s.host = .rst :: rest →
    ∃ t, step s = .next t ∧ t.hash.seed = State.reset.hash.seed)

/-- R30, R31, R83, R204: the frame of every command. It leaves the host's side alone; it consumes exactly
its word, or is held by a full response queue (R85, R234) and changes nothing (assumption log 3); it
removes no record and appends at most one, with room for it; INIT, and UPDATE of an initialised engine,
append none; and a command that raises an error changes neither the flag nor a hashing field. -/
def Obligations.CommandFrame : Prop :=
  ∀ (i : Instr) (s t : State), exec i s = .next t →
    t.host = s.host ∧ t.taken = s.taken ∧
    ((t = s ∧ Config.respDepth ≤ s.respQ.length) ∨ (t.cmdIn = s.cmdIn.tail ∧ t.seq = .idle)) ∧
    (t.respQ = s.respQ ∨ ∃ r, t.respQ = s.respQ ++ [r] ∧ s.respQ.length < Config.respDepth) ∧
    ((∃ seed, i = .init seed) ∨ (∃ hdr b, i = .update hdr b) ∧ s.initialised = true →
      t.respQ = s.respQ) ∧
    ((∃ e v, e ≠ .digestOk ∧ t.respQ = s.respQ ++ [{ code := e, value := v }]) →
      t.hash = s.hash ∧ t.initialised = s.initialised)

/-- R204: raising an error changes nothing but that its word is consumed, the sequencer is Idle and its
record is appended. With the queue full it is held (R85, R234), and the model's step then answers the
same state (assumption log 3). -/
def Obligations.RaiseOnlyAppendsItsRecord : Prop :=
  ∀ (e : RespCode) (v : Word) (s : State),
    (s.respQ.length < Config.respDepth →
      raise e v s = .next { s with
        cmdIn := s.cmdIn.tail, seq := .idle, respQ := s.respQ ++ [{ code := e, value := v }] }) ∧
    (Config.respDepth ≤ s.respQ.length → raise e v s = .next s)

/-- R66, R213: a move of one engine never changes another engine's state, and does not depend on it. -/
def Obligations.EnginesShareNothing : Prop :=
  ∀ (p p' : Platform) (k j : Nat),
    (j ≠ k → (platformStep k p).engines[j]? = p.engines[j]?) ∧
    (p.engines[k]? = p'.engines[k]? →
      (platformStep k p).engines[k]? = (platformStep k p').engines[k]?) ∧
    (platformStep k p).engines.length = p.engines.length

/-! ### Primitives -/

/-- R100, R101, R102, R105: the engine's own sums, differences, products and shifts, as natural numbers
reduced modulo 2^64: the byte count (R132), the post-init lanes (R121), the short start (R155), the
round (R108), the merge (R154) and the avalanche (R161). -/
def Obligations.WordArithmeticWraps : Prop :=
  let p1 : Nat := 11400714785074694791
  let p2 : Nat := 14029467366897019727
  let p3 : Nat := 1609587929392839161
  let p4 : Nat := 9650029242287828579
  let p5 : Nat := 2870177450012600261
  (∀ (n : Nat) (h : HashState),
    (countBytes n h).totalLength.toNat = (h.totalLength.toNat + n) % 2 ^ 64) ∧
  (∀ seed : Seed,
    (initHash seed).v1.toNat = (seed.toNat + p1 + p2) % 2 ^ 64 ∧
    (initHash seed).v2.toNat = (seed.toNat + p2) % 2 ^ 64 ∧
    (initHash seed).v3.toNat = seed.toNat ∧
    (initHash seed).v4.toNat = (2 ^ 64 + seed.toNat - p1) % 2 ^ 64) ∧
  (∀ h : HashState, (seedStart h).toNat = (h.seed.toNat + p5) % 2 ^ 64) ∧
  (∀ acc w : Word,
    let x := (acc.toNat + w.toNat * p2) % 2 ^ 64
    (round64 acc w).toNat = (x * 2 ^ 31 % 2 ^ 64 ||| x / 2 ^ 33) * p1 % 2 ^ 64) ∧
  (∀ h v : Word,
    (mergeRound h v).toNat = ((h.toNat ^^^ (round64 0 v).toNat) * p1 + p4) % 2 ^ 64) ∧
  (∀ h : Word,
    let a := h.toNat ^^^ h.toNat / 2 ^ 33
    let b := a * p2 % 2 ^ 64
    let c := b ^^^ b / 2 ^ 29
    let d := c * p3 % 2 ^ 64
    (avalanche h).toNat = d ^^^ d / 2 ^ 32)

/-- R104: for `0 < r < 64`, rotation is `((x << r) mod 2^64) OR (x >> (64 − r))`, no bit lost. -/
def Obligations.RotationWrapsBitsAround : Prop :=
  ∀ (x : Word) (r : Nat), 0 < r → r < 64 →
    (rotl64 x r).toNat = (x.toNat * 2 ^ r) % 2 ^ 64 ||| x.toNat / 2 ^ (64 - r) ∧
    ∀ j, j < 64 → (rotl64 x r).getLsbD ((j + r) % 64) = x.getLsbD j

/-- R107: `ReadLE(b, off, n)` is the little-endian value of the `n` bytes at `off`. -/
def Obligations.ReadLEIsTheLittleEndianSum : Prop :=
  ∀ (b : List Byte) (off n : Nat), n = 1 ∨ n = 4 ∨ n = 8 → off + n ≤ b.length →
    (readLE b off n).toNat =
      ((List.range n).map fun k => (b.getD (off + k) 0).toNat * 2 ^ (8 * k)).sum

/-- R54: an 8-byte word that comes from one aligned beat is that beat. -/
def Obligations.AlignedBeatIsItsWord : Prop :=
  ∀ (w : Word) (before after : List Byte),
    readLE (before ++ beatBytes w ++ after) before.length 8 = w
end

