-- ==== Sys2Proof/Laws/Encoding.lean ====
section
/-!
SUPPORT. The fields of the headers the encoder writes, and how they decode.
-/

namespace Sys2Proof

open Machine

theorem opcodeOf_initHeader (seed : Seed) : opcodeOf (initHeader seed) = 0b0001#4 := by
  unfold opcodeOf initHeader
  ext j hj
  simp only [BitVec.getElem_extractLsb', BitVec.getLsbD_append]
  rw [if_neg (by omega), if_neg (by omega), BitVec.getLsbD_eq_getElem (by omega)]
  congr 1
  omega

theorem initReservedOf_initHeader (seed : Seed) : initReservedOf (initHeader seed) = 0#28 := by
  unfold initReservedOf initHeader
  ext j hj
  simp only [BitVec.getElem_extractLsb', BitVec.getLsbD_append]
  rw [if_neg (by omega), if_pos (by omega)]
  simp

theorem seedOf_initHeader (seed : Seed) : seedOf (initHeader seed) = seed := by
  unfold seedOf initHeader
  ext j hj
  simp only [BitVec.getElem_extractLsb', BitVec.getLsbD_append]
  rw [if_pos (by omega), BitVec.getLsbD_eq_getElem (by omega)]
  congr 1
  omega

theorem opcodeOf_updateHeader (n : Len) : opcodeOf (updateHeader n) = 0b0010#4 := by
  unfold opcodeOf updateHeader
  ext j hj
  simp only [BitVec.getElem_extractLsb', BitVec.getLsbD_append]
  rw [if_neg (by omega), BitVec.getLsbD_eq_getElem (by omega)]
  congr 1
  omega

theorem lenOf_updateHeader (n : Len) : lenOf (updateHeader n) = n := by
  unfold lenOf updateHeader
  ext j hj
  simp only [BitVec.getElem_extractLsb', BitVec.getLsbD_append]
  rw [if_pos (by omega), BitVec.getLsbD_eq_getElem (by omega)]
  congr 1
  omega

theorem decodeHeader_of_init {w : Word} (ho : opcodeOf w = 0b0001#4) (hr : initReservedOf w = 0#28) :
    decodeHeader w = .init (seedOf w) := by
  simp [decodeHeader, ho, hr]

theorem decodeHeader_of_update {w : Word} (ho : opcodeOf w = 0b0010#4) :
    decodeHeader w = .update (lenOf w) := by
  simp [decodeHeader, ho]

theorem decodeHeader_of_digest {w : Word} (ho : opcodeOf w = 0b0011#4) (hr : lenOf w = 0#60) :
    decodeHeader w = .digest := by
  simp [decodeHeader, ho, hr]

theorem decodeHeader_initHeader (seed : Seed) : decodeHeader (initHeader seed) = .init seed := by
  rw [decodeHeader_of_init (opcodeOf_initHeader seed) (initReservedOf_initHeader seed),
    seedOf_initHeader]

theorem decodeHeader_updateHeader (n : Len) : decodeHeader (updateHeader n) = .update n := by
  rw [decodeHeader_of_update (opcodeOf_updateHeader n), lenOf_updateHeader]

theorem decodeHeader_digestHeader : decodeHeader digestHeader = .digest := by decide

@[simp] theorem chunkOf_length (n : Nat) (d : Nat → Word) : (chunkOf n d).length = n := by
  simp [chunkOf]

@[simp] theorem packBeats_length (b : List Byte) : (packBeats b).length = beatCount b.length := by
  simp [packBeats]

end Sys2Proof
end

