-- ==== Sys2Proof/Laws/State.lean ====
section
/-!
SUPPORT. What each state update does to each field, so that no later proof unfolds an update.

The proofs are written `(rfl)`, so that `simp` puts a proof term where it uses a lemma. Used as plain
definitional unfoldings they would leave the kernel to compare two whole states, and so a lane with a
product of it by a prime, which it can only do by unfolding the product.
-/

namespace Sys2Proof.Machine

variable (s : State)

/-! ### `State.setInitialised` -/

@[simp] theorem State.setInitialised_initialised : s.setInitialised.initialised = true := (rfl)
@[simp] theorem State.setInitialised_hash : s.setInitialised.hash = s.hash := (rfl)
@[simp] theorem State.setInitialised_seq : s.setInitialised.seq = s.seq := (rfl)
@[simp] theorem State.setInitialised_respQ : s.setInitialised.respQ = s.respQ := (rfl)
@[simp] theorem State.setInitialised_cmdIn : s.setInitialised.cmdIn = s.cmdIn := (rfl)
@[simp] theorem State.setInitialised_host : s.setInitialised.host = s.host := (rfl)
@[simp] theorem State.setInitialised_taken : s.setInitialised.taken = s.taken := (rfl)

/-! ### `State.setHash` -/

variable (hs : HashState)

@[simp] theorem State.setHash_initialised : (s.setHash hs).initialised = s.initialised := (rfl)
@[simp] theorem State.setHash_hash : (s.setHash hs).hash = hs := (rfl)
@[simp] theorem State.setHash_seq : (s.setHash hs).seq = s.seq := (rfl)
@[simp] theorem State.setHash_respQ : (s.setHash hs).respQ = s.respQ := (rfl)
@[simp] theorem State.setHash_cmdIn : (s.setHash hs).cmdIn = s.cmdIn := (rfl)
@[simp] theorem State.setHash_host : (s.setHash hs).host = s.host := (rfl)
@[simp] theorem State.setHash_taken : (s.setHash hs).taken = s.taken := (rfl)

/-! ### `State.emit` -/

variable (c : RespCode) (v : Word)

@[simp] theorem State.emit_initialised : (s.emit c v).initialised = s.initialised := (rfl)
@[simp] theorem State.emit_hash : (s.emit c v).hash = s.hash := (rfl)
@[simp] theorem State.emit_seq : (s.emit c v).seq = s.seq := (rfl)
@[simp] theorem State.emit_respQ : (s.emit c v).respQ = s.respQ ++ [{ code := c, value := v }] := (rfl)
@[simp] theorem State.emit_cmdIn : (s.emit c v).cmdIn = s.cmdIn := (rfl)
@[simp] theorem State.emit_host : (s.emit c v).host = s.host := (rfl)
@[simp] theorem State.emit_taken : (s.emit c v).taken = s.taken := (rfl)

/-! ### `State.endCommand` -/

@[simp] theorem State.endCommand_initialised : s.endCommand.initialised = s.initialised := (rfl)
@[simp] theorem State.endCommand_hash : s.endCommand.hash = s.hash := (rfl)
@[simp] theorem State.endCommand_seq : s.endCommand.seq = .idle := (rfl)
@[simp] theorem State.endCommand_respQ : s.endCommand.respQ = s.respQ := (rfl)
@[simp] theorem State.endCommand_cmdIn : s.endCommand.cmdIn = s.cmdIn.tail := (rfl)
@[simp] theorem State.endCommand_host : s.endCommand.host = s.host := (rfl)
@[simp] theorem State.endCommand_taken : s.endCommand.taken = s.taken := (rfl)

/-! ### `State.collectMore` -/

variable (hdr : Word) (need : Nat) (got : List Byte)

@[simp] theorem State.collectMore_initialised :
    (s.collectMore hdr need got).initialised = s.initialised := (rfl)
@[simp] theorem State.collectMore_hash : (s.collectMore hdr need got).hash = s.hash := (rfl)
@[simp] theorem State.collectMore_seq :
    (s.collectMore hdr need got).seq = .collect hdr need got := (rfl)
@[simp] theorem State.collectMore_respQ : (s.collectMore hdr need got).respQ = s.respQ := (rfl)
@[simp] theorem State.collectMore_cmdIn :
    (s.collectMore hdr need got).cmdIn = s.cmdIn.tail := (rfl)
@[simp] theorem State.collectMore_host : (s.collectMore hdr need got).host = s.host := (rfl)
@[simp] theorem State.collectMore_taken : (s.collectMore hdr need got).taken = s.taken := (rfl)

/-! ### `State.hardwareReset` -/

@[simp] theorem State.hardwareReset_initialised : s.hardwareReset.initialised = false := (rfl)
@[simp] theorem State.hardwareReset_hash : s.hardwareReset.hash = HashState.blank := (rfl)
@[simp] theorem State.hardwareReset_seq : s.hardwareReset.seq = .idle := (rfl)
@[simp] theorem State.hardwareReset_respQ : s.hardwareReset.respQ = [] := (rfl)
@[simp] theorem State.hardwareReset_cmdIn :
    s.hardwareReset.cmdIn = if Config.resetDropsQueuedWords then [] else s.cmdIn := (rfl)
@[simp] theorem State.hardwareReset_host : s.hardwareReset.host = s.host := (rfl)
@[simp] theorem State.hardwareReset_taken : s.hardwareReset.taken = s.taken := (rfl)

/-! ### `State.loaded` and `State.sending` -/

variable (ws : List Word)

@[simp] theorem State.loaded_cmdIn : (s.loaded ws).cmdIn = ws := (rfl)
@[simp] theorem State.loaded_host : (s.loaded ws).host = [] := (rfl)
@[simp] theorem State.loaded_seq : (s.loaded ws).seq = s.seq := (rfl)
@[simp] theorem State.loaded_respQ : (s.loaded ws).respQ = s.respQ := (rfl)
@[simp] theorem State.loaded_hash : (s.loaded ws).hash = s.hash := (rfl)
@[simp] theorem State.loaded_initialised : (s.loaded ws).initialised = s.initialised := (rfl)
@[simp] theorem State.loaded_taken : (s.loaded ws).taken = s.taken := (rfl)
@[simp] theorem State.sending_cmdIn : (s.sending ws).cmdIn = [] := (rfl)
@[simp] theorem State.sending_host : (s.sending ws).host = ws.map HostAct.send := (rfl)

/-! ### `setLanes`, `blockMix`, `countBytes` and `initHash` on the hashing fields

The lemmas of `blockMix` go through `setLanes` with plain variables: asked to compare a lane with its
own round, the kernel would unfold the multiplication by a prime. -/

variable (h : HashState) (blk : List Byte) (n : Nat) (seed : Seed) (a b c' d : Word)

@[simp] theorem setLanes_seed : (setLanes a b c' d h).seed = h.seed := (rfl)
@[simp] theorem setLanes_v1 : (setLanes a b c' d h).v1 = a := (rfl)
@[simp] theorem setLanes_v2 : (setLanes a b c' d h).v2 = b := (rfl)
@[simp] theorem setLanes_v3 : (setLanes a b c' d h).v3 = c' := (rfl)
@[simp] theorem setLanes_v4 : (setLanes a b c' d h).v4 = d := (rfl)
@[simp] theorem setLanes_totalLength : (setLanes a b c' d h).totalLength = h.totalLength := (rfl)
@[simp] theorem setLanes_buf : (setLanes a b c' d h).buf = h.buf := (rfl)
@[simp] theorem setLanes_pendingCount : (setLanes a b c' d h).pendingCount = h.pendingCount := (rfl)
@[simp] theorem blockMix_seed : (blockMix blk h).seed = h.seed := setLanes_seed h _ _ _ _
@[simp] theorem blockMix_totalLength : (blockMix blk h).totalLength = h.totalLength :=
  setLanes_totalLength h _ _ _ _
@[simp] theorem blockMix_buf : (blockMix blk h).buf = h.buf := setLanes_buf h _ _ _ _
@[simp] theorem blockMix_pendingCount : (blockMix blk h).pendingCount = h.pendingCount :=
  setLanes_pendingCount h _ _ _ _
@[simp] theorem countBytes_seed : (countBytes n h).seed = h.seed := (rfl)
@[simp] theorem countBytes_buf : (countBytes n h).buf = h.buf := (rfl)
@[simp] theorem countBytes_pendingCount : (countBytes n h).pendingCount = h.pendingCount := (rfl)
@[simp] theorem countBytes_totalLength :
    (countBytes n h).totalLength = h.totalLength + zextLen n := (rfl)
@[simp] theorem initHash_seed : (initHash seed).seed = seed := (rfl)
@[simp] theorem initHash_totalLength : (initHash seed).totalLength = 0 := (rfl)
@[simp] theorem initHash_buf : (initHash seed).buf = [] := (rfl)
@[simp] theorem initHash_pendingCount : (initHash seed).pendingCount = 0 := (rfl)

end Sys2Proof.Machine
end

