-- ==== Sys2Proof/Laws/Ops.lean ====
section
/-!
SUPPORT. What each shared operation can answer, said once; proofs cite these and do not unfold it.
-/

namespace Sys2Proof.Machine

theorem Config.respDepth_pos : 0 < Config.respDepth := Nat.succ_pos _
theorem Config.cmdDepth_pos : 0 < Config.cmdDepth := Nat.succ_pos _

theorem State.hasRoom_iff (s : State) : s.hasRoom = true ↔ s.respQ.length < Config.respDepth := by
  simp [State.hasRoom]

theorem State.cmdHasRoom_iff (s : State) :
    s.cmdHasRoom = true ↔ s.cmdIn.length < Config.cmdDepth := by
  simp [State.cmdHasRoom]

/-! ### Answering -/

theorem respond_of_room {s : State} (h : s.respQ.length < Config.respDepth)
    (c : RespCode) (v : Word) (t : State) : respond c v t s = .next (t.endCommand.emit c v) := by
  simp [respond, State.hasRoom, h]

theorem respond_of_full {s : State} (h : Config.respDepth ≤ s.respQ.length)
    (c : RespCode) (v : Word) (t : State) : respond c v t s = .next s := by
  simp [respond, State.hasRoom, Nat.not_lt.mpr h]

/-- `respond` either ends the command with one record or is held. -/
theorem respond_cases {c : RespCode} {v : Word} {t s u : State} (h : respond c v t s = .next u) :
    (s.respQ.length < Config.respDepth ∧ u = t.endCommand.emit c v) ∨
    (Config.respDepth ≤ s.respQ.length ∧ u = s) := by
  by_cases hr : s.respQ.length < Config.respDepth
  · rw [respond_of_room hr] at h
    exact .inl ⟨hr, by simpa using h.symm⟩
  · rw [respond_of_full (Nat.not_lt.mp hr)] at h
    exact .inr ⟨Nat.not_lt.mp hr, by simpa using h.symm⟩

/-! ### The meanings, case by case -/

theorem exec_init (seed : Seed) (s : State) :
    exec (.init seed) s = .next (s.endCommand.setInitialised.setHash (initHash seed)) := rfl

theorem exec_update_ready {s : State} (h : s.initialised = true) (hdr : Word) (b : List Byte) :
    exec (.update hdr b) s = .next (s.endCommand.setHash (updateHash b s.hash)) := by
  simp [exec, execUpdate, State.ready, h]

theorem exec_update_notReady {s : State} (h : s.initialised = false) (hdr : Word) (b : List Byte) :
    exec (.update hdr b) s = raise .errNotInitialised hdr s := by
  simp [exec, execUpdate, State.ready, h]

theorem exec_digest_ready {s : State} (h : s.initialised = true) :
    exec .digest s =
      respond .digestOk (digestValue s.hash) (s.setHash (initHash s.hash.seed)) s := by
  simp [exec, execDigest, State.ready, h]

theorem exec_digest_notReady {s : State} (h : s.initialised = false) :
    exec .digest s = raise .errNotInitialised digestHeader s := by
  simp [exec, execDigest, State.ready, h]

/-- Everything a command can do. -/
theorem exec_cases {i : Instr} {s t : State} (h : exec i s = .next t) :
    (∃ seed, i = .init seed ∧ t = s.endCommand.setInitialised.setHash (initHash seed)) ∨
    (∃ hdr b, i = .update hdr b ∧ s.initialised = true ∧
      t = s.endCommand.setHash (updateHash b s.hash)) ∨
    (i = .digest ∧ s.initialised = true ∧
      respond .digestOk (digestValue s.hash) (s.setHash (initHash s.hash.seed)) s = .next t) ∨
    (∃ w, s.initialised = false ∧ (i = .digest ∧ w = digestHeader ∨ ∃ b, i = .update w b) ∧
      raise .errNotInitialised w s = .next t) := by
  cases i with
  | init seed => exact .inl ⟨seed, rfl, by simpa [exec_init] using h.symm⟩
  | update hdr b =>
    cases hi : s.initialised with
    | true =>
      rw [exec_update_ready hi] at h
      exact .inr (.inl ⟨hdr, b, rfl, hi ▸ rfl, by simpa using h.symm⟩)
    | false =>
      rw [exec_update_notReady hi] at h
      exact .inr (.inr (.inr ⟨hdr, hi ▸ rfl, .inr ⟨b, rfl⟩, h⟩))
  | digest =>
    cases hi : s.initialised with
    | true =>
      rw [exec_digest_ready hi] at h
      exact .inr (.inr (.inl ⟨rfl, hi ▸ rfl, h⟩))
    | false =>
      rw [exec_digest_notReady hi] at h
      exact .inr (.inr (.inr ⟨digestHeader, hi ▸ rfl, .inl ⟨rfl, rfl⟩, h⟩))

/-! ### The engine's step -/

theorem step_of_quiet {s : State} (h : s.host = []) : step s = engineStep s := by
  simp [step, machineStep, h]

/-! ### Runs -/

@[simp] theorem runFor_zero (s : State) : runFor 0 s = .next s := rfl

theorem runFor_succ {k : Nat} {s t : State} (h : step s = .next t) :
    runFor (k + 1) s = runFor k t := by
  have hc : core.step s = .next t := h
  refine (Host.Core.run.eq_2 core s k).trans ?_
  rw [hc]
  rfl

theorem runFor_one {s t : State} (h : step s = .next t) : runFor 1 s = .next t :=
  runFor_succ h

/-- Runs chain; `hn` says that no step stops the machine. -/
theorem runFor_add (hn : ∀ u, ∃ v, step u = .next v) {j : Nat} :
    ∀ {k : Nat} {s t : State}, runFor k s = .next t → runFor (k + j) s = runFor j t
  | 0, s, t, h => by
    simp only [runFor_zero, Host.Outcome.next.injEq] at h
    simp [h]
  | k + 1, s, t, h => by
    obtain ⟨v, hv⟩ := hn s
    rw [runFor_succ hv] at h
    rw [Nat.add_right_comm, runFor_succ hv]
    exact runFor_add hn h

end Sys2Proof.Machine
end

