-- ==== Sys2Proof/Laws/Engine.lean ====
section
/-!
SUPPORT. The engine's step as a function of `S` and the word at the head of CMD_IN alone. What stands
behind that word, what the host plans and what it has taken only ride along, so facts about framing,
queues and runs need no case split over the commands.
-/

namespace Sys2Proof.Machine

/-- The fields of the spec's `S` (10_state.md R20). -/
structure EngineCore where
  initialised : Bool
  hash : HashState
  seq : Sequencer
  respQ : List Resp
  deriving DecidableEq, Repr

/-- `S` of a state. -/
def State.engine (s : State) : EngineCore :=
  { initialised := s.initialised, hash := s.hash, seq := s.seq, respQ := s.respQ }

/-- The state with `S` and what rides along put together. -/
def EngineCore.withPorts (e : EngineCore) (cmdIn : List Word) (host : List HostAct)
    (taken : List Resp) : State :=
  { initialised := e.initialised, hash := e.hash, seq := e.seq, respQ := e.respQ,
    cmdIn := cmdIn, host := host, taken := taken }

@[simp] theorem State.engine_withPorts (s : State) :
    s.engine.withPorts s.cmdIn s.host s.taken = s := (rfl)

@[simp] theorem EngineCore.withPorts_engine (e : EngineCore) (c l k) :
    (e.withPorts c l k).engine = e := (rfl)

/-- End a command on `S` with hashing fields `h` and one record; none where the record has no room. -/
def EngineCore.respond (e : EngineCore) (h : HashState) (c : RespCode) (v : Word) :
    Option EngineCore :=
  if e.respQ.length < Config.respDepth then
    some { e with hash := h, seq := .idle, respQ := e.respQ ++ [{ code := c, value := v }] }
  else none

/-- What a complete UPDATE does to `S`. -/
def EngineCore.update (e : EngineCore) (hdr : Word) (b : List Byte) : Option EngineCore :=
  if e.initialised then some { e with hash := updateHash b e.hash, seq := .idle }
  else e.respond e.hash .errNotInitialised hdr

/-- What the word `w` does to `S`; none where it is held. -/
def EngineCore.accept (e : EngineCore) (w : Word) : Option EngineCore :=
  match e.seq with
  | .idle =>
    match decodeHeader w with
    | .init seed => some { e with initialised := true, hash := initHash seed }
    | .update n =>
      if n.toNat = 0 then e.update w [] else some { e with seq := .collect w (beatCount n.toNat) [] }
    | .digest =>
      if e.initialised then e.respond (initHash e.hash.seed) .digestOk (digestValue e.hash)
      else e.respond e.hash .errNotInitialised digestHeader
    | .reservedOpcode => e.respond e.hash .errIllegalCommand w
    | .reservedBits => e.respond e.hash .errIllegalCommand w
  | .collect hdr need got =>
    if need = 1 then e.update hdr ((got ++ beatBytes w).take (lenOf hdr).toNat)
    else some { e with seq := .collect hdr (need - 1) (got ++ beatBytes w) }

theorem EngineCore.respond_cases {e e' : EngineCore} {h : HashState} {c : RespCode} {v : Word}
    (he : e.respond h c v = some e') :
    e.respQ.length < Config.respDepth ∧
      e' = { e with hash := h, seq := .idle, respQ := e.respQ ++ [{ code := c, value := v }] } := by
  by_cases hq : e.respQ.length < Config.respDepth
  · rw [EngineCore.respond, if_pos hq] at he
    exact ⟨hq, (Option.some.inj he).symm⟩
  · rw [EngineCore.respond, if_neg hq] at he
    exact nomatch he

theorem EngineCore.update_cases {e e' : EngineCore} {hdr : Word} {b : List Byte}
    (he : e.update hdr b = some e') :
    (e.initialised = true ∧ e' = { e with hash := updateHash b e.hash, seq := .idle }) ∨
    (e.initialised = false ∧ e.respond e.hash .errNotInitialised hdr = some e') := by
  cases hi : e.initialised with
  | true =>
    rw [EngineCore.update, if_pos hi] at he
    exact .inl ⟨rfl, by rw [← Option.some.inj he, ← hi]⟩
  | false =>
    rw [EngineCore.update, if_neg (by simp [hi])] at he
    exact .inr ⟨rfl, he⟩

/-- Everything an accepted word can do to `S`. -/
theorem EngineCore.accept_cases {e e' : EngineCore} {w : Word} (he : e.accept w = some e') :
    (∃ seed, e.seq = .idle ∧ decodeHeader w = .init seed ∧
      e' = { e with initialised := true, hash := initHash seed }) ∨
    (∃ hdr b, (e.seq = .idle ∧ decodeHeader w = .update 0 ∧ hdr = w ∧ b = [] ∨
        ∃ got, e.seq = .collect hdr 1 got ∧ b = (got ++ beatBytes w).take (lenOf hdr).toNat) ∧
      e.update hdr b = some e') ∨
    (∃ n, e.seq = .idle ∧ decodeHeader w = .update n ∧ n.toNat ≠ 0 ∧
      e' = { e with seq := .collect w (beatCount n.toNat) [] }) ∨
    (∃ hdr need got, e.seq = .collect hdr need got ∧ need ≠ 1 ∧
      e' = { e with seq := .collect hdr (need - 1) (got ++ beatBytes w) }) ∨
    (e.seq = .idle ∧ decodeHeader w = .digest ∧ e.initialised = true ∧
      e.respond (initHash e.hash.seed) .digestOk (digestValue e.hash) = some e') ∨
    (e.seq = .idle ∧ decodeHeader w = .digest ∧ e.initialised = false ∧
      e.respond e.hash .errNotInitialised digestHeader = some e') ∨
    (e.seq = .idle ∧ (decodeHeader w = .reservedOpcode ∨ decodeHeader w = .reservedBits) ∧
      e.respond e.hash .errIllegalCommand w = some e') := by
  unfold EngineCore.accept at he
  cases hs : e.seq with
  | idle =>
    simp only [hs] at he
    cases hd : decodeHeader w with
    | init seed =>
      simp only [hd, Option.some.injEq] at he
      exact .inl ⟨seed, rfl, rfl, by rw [← he, ← hs]⟩
    | update n =>
      simp only [hd] at he
      by_cases hn : n.toNat = 0
      · have h0 : n = 0 := BitVec.eq_of_toNat_eq (by simpa using hn)
        rw [if_pos hn] at he
        exact .inr (.inl ⟨w, [], .inl ⟨rfl, by rw [h0], rfl, rfl⟩, he⟩)
      · rw [if_neg hn, Option.some.injEq] at he
        exact .inr (.inr (.inl ⟨n, rfl, rfl, hn, he.symm⟩))
    | digest =>
      simp only [hd] at he
      cases hi : e.initialised with
      | true =>
        rw [if_pos hi] at he
        exact .inr (.inr (.inr (.inr (.inl ⟨rfl, rfl, rfl, he⟩))))
      | false =>
        rw [if_neg (by simp [hi])] at he
        exact .inr (.inr (.inr (.inr (.inr (.inl ⟨rfl, rfl, rfl, he⟩)))))
    | reservedOpcode =>
      simp only [hd] at he
      exact .inr (.inr (.inr (.inr (.inr (.inr ⟨rfl, .inl rfl, he⟩)))))
    | reservedBits =>
      simp only [hd] at he
      exact .inr (.inr (.inr (.inr (.inr (.inr ⟨rfl, .inr rfl, he⟩)))))
  | collect hdr need got =>
    simp only [hs] at he
    by_cases hn : need = 1
    · rw [if_pos hn] at he
      exact .inr (.inl ⟨hdr, _, .inr ⟨got, by rw [hn], rfl⟩, he⟩)
    · rw [if_neg hn, Option.some.injEq] at he
      exact .inr (.inr (.inr (.inl ⟨hdr, need, got, rfl, hn, he.symm⟩)))

theorem respond_withPorts (e e' : EngineCore) (c : RespCode) (v : Word) (cs : List Word)
    (l : List HostAct) (k : List Resp) (hi : e'.initialised = e.initialised)
    (hq : e'.respQ = e.respQ) :
    Machine.respond c v (e'.withPorts cs l k) (e.withPorts cs l k) =
      .next (match e.respond e'.hash c v with
        | none => e.withPorts cs l k
        | some e'' => e''.withPorts cs.tail l k) := by
  unfold EngineCore.respond
  by_cases hr : e.respQ.length < Config.respDepth
  · rw [respond_of_room (by simpa [EngineCore.withPorts] using hr), if_pos hr]
    simp [State.emit, State.endCommand, EngineCore.withPorts, hi, hq]
  · rw [respond_of_full (by simpa [EngineCore.withPorts] using hr), if_neg hr]

theorem exec_update_withPorts (e : EngineCore) (hdr : Word) (b : List Byte) (cs : List Word)
    (l : List HostAct) (k : List Resp) :
    exec (.update hdr b) (e.withPorts cs l k) =
      .next (match e.update hdr b with
        | none => e.withPorts cs l k
        | some e' => e'.withPorts cs.tail l k) := by
  unfold EngineCore.update
  cases hi : e.initialised with
  | true =>
    rw [exec_update_ready (by simpa [EngineCore.withPorts] using hi), if_pos rfl]
    simp [State.setHash, State.endCommand, EngineCore.withPorts, hi]
  | false =>
    rw [exec_update_notReady (by simpa [EngineCore.withPorts] using hi), if_neg (by simp)]
    exact respond_withPorts e e _ _ _ _ _ rfl rfl

/-- The engine's step is `EngineCore.accept` of the head word, which is then consumed; or it is held. -/
theorem engineStep_withPorts (e : EngineCore) (w : Word) (cs : List Word) (l : List HostAct)
    (k : List Resp) :
    engineStep (e.withPorts (w :: cs) l k) =
      .next (match e.accept w with
        | none => e.withPorts (w :: cs) l k
        | some e' => e'.withPorts cs l k) := by
  have hstep : engineStep (e.withPorts (w :: cs) l k) =
      (match e.seq with
      | .idle => acceptHeader w (e.withPorts (w :: cs) l k)
      | .collect hdr need got => acceptBeat hdr need got w (e.withPorts (w :: cs) l k)) := rfl
  rw [hstep]
  unfold EngineCore.accept
  cases hs : e.seq with
  | idle =>
    simp only [acceptHeader]
    cases hd : decodeHeader w with
    | init seed =>
      simp [exec_init, State.setHash, State.setInitialised, State.endCommand,
        EngineCore.withPorts, hs]
    | update n =>
      by_cases hn : n.toNat = 0
      · simp only [if_pos hn]
        exact exec_update_withPorts e w [] (w :: cs) l k
      · simp only [if_neg hn]
        simp [State.collectMore, EngineCore.withPorts]
    | digest =>
      cases hi : e.initialised with
      | true =>
        rw [exec_digest_ready (by simpa [EngineCore.withPorts] using hi)]
        simp only [if_true]
        exact respond_withPorts e { e with hash := initHash e.hash.seed } _ _ _ _ _ rfl rfl
      | false =>
        rw [exec_digest_notReady (by simpa [EngineCore.withPorts] using hi)]
        simp only [Bool.false_eq_true, if_false]
        exact respond_withPorts e e _ _ (w :: cs) l k rfl rfl
    | reservedOpcode => exact respond_withPorts e e _ _ (w :: cs) l k rfl rfl
    | reservedBits => exact respond_withPorts e e _ _ (w :: cs) l k rfl rfl
  | collect hdr need got =>
    simp only [acceptBeat]
    by_cases hn : need = 1
    · simp only [if_pos hn]
      exact exec_update_withPorts e hdr _ (w :: cs) l k
    · simp only [if_neg hn]
      simp [State.collectMore, EngineCore.withPorts]

theorem engineStep_of_word {s : State} {w : Word} {rest : List Word} (hc : s.cmdIn = w :: rest) :
    engineStep s = .next (match s.engine.accept w with
      | none => s
      | some e => e.withPorts rest s.host s.taken) := by
  have hs : s = s.engine.withPorts (w :: rest) s.host s.taken := by
    rw [← hc, State.engine_withPorts]
  conv_lhs => rw [hs]
  rw [engineStep_withPorts, ← hs]

theorem engineStep_of_empty {s : State} (hc : s.cmdIn = []) : engineStep s = .next s := by
  simp [engineStep, hc]

/-- Everything a step of the engine can do: nothing, or accept the head word. -/
theorem engineStep_cases {s t : State} (h : engineStep s = .next t) :
    t = s ∨ ∃ w rest e, s.cmdIn = w :: rest ∧ s.engine.accept w = some e ∧
      t = e.withPorts rest s.host s.taken := by
  rcases hc : s.cmdIn with _ | ⟨w, rest⟩
  · rw [engineStep_of_empty hc] at h
    exact .inl (by simpa using h.symm)
  · rw [engineStep_of_word hc] at h
    cases ha : s.engine.accept w with
    | none => exact .inl (by simpa [ha] using h.symm)
    | some e => exact .inr ⟨w, rest, e, rfl, ha, by simpa [ha] using h.symm⟩

/-- A word is held exactly where it would append a record and there is no room for one (R234). -/
theorem accept_eq_none_iff {s : State} {w : Word} {rest : List Word} (hc : s.cmdIn = w :: rest) :
    s.engine.accept w = none ↔ s.Held := by
  have hr : ∀ (h : HashState) (c : RespCode) (v : Word),
      s.engine.respond h c v = none ↔ Config.respDepth ≤ s.respQ.length := by
    intro h c v
    by_cases hq : s.respQ.length < Config.respDepth <;>
      simp [EngineCore.respond, State.engine, hq, Nat.not_le.mpr, Nat.not_lt.mp]
  have hu : ∀ hdr b, s.engine.update hdr b = none ↔
      s.initialised = false ∧ Config.respDepth ≤ s.respQ.length := by
    intro hdr b
    cases hi : s.initialised with
    | true => simp [EngineCore.update, State.engine, hi]
    | false =>
      have : s.engine.update hdr b = s.engine.respond s.hash .errNotInitialised hdr := by
        simp [EngineCore.update, State.engine, hi]
      rw [this, hr]
      simp
  have hseq : s.engine.seq = s.seq := rfl
  have hini : s.engine.initialised = s.initialised := rfl
  unfold EngineCore.accept State.Held State.wouldRespond
  simp only [hc, hseq]
  cases s.seq with
  | idle =>
    cases decodeHeader w with
    | init seed => simp
    | update n =>
      by_cases hn : n.toNat = 0
      · simp [hn, hu]
      · simp [hn]
    | digest => cases hi : s.initialised <;> simp [hini, hi, hr]
    | reservedOpcode => simp [hr]
    | reservedBits => simp [hr]
  | collect hdr need got =>
    by_cases hn : need = 1
    · simp [hn, hu]
    · simp [hn]

end Sys2Proof.Machine
end

