-- ==== Sys2Proof/Laws/Hash.lean ====
section
/-!
SUPPORT. One turn of each loop and one lemma per branch of the hashing functions, so that a proof about
a command cites a turn and does not unfold the function; and rotation in the library's own words.
-/

namespace Sys2Proof.Machine

theorem rotl64_eq_rotateLeft (x : Word) {r : Nat} (h : r < 64) : rotl64 x r = x.rotateLeft r := by
  rw [rotl64, BitVec.rotateLeft_def, Nat.mod_eq_of_lt h]

/-! ### UPDATE -/

theorem updateHash_nil (h : HashState) : updateHash [] h = h := by simp [updateHash]

theorem updateHash_short {b : List Byte} {h : HashState} (hb : b ≠ [])
    (hl : h.pendingCount.toNat + b.length < 32) :
    updateHash b h = shortPath b (countBytes b.length h) := by
  have h0 : b.length ≠ 0 := fun h0 => hb (List.length_eq_zero_iff.mp h0)
  rw [updateHash, if_neg h0, if_pos hl]

theorem updateHash_long {b : List Byte} {h : HashState} (hb : b ≠ [])
    (hl : 32 ≤ h.pendingCount.toNat + b.length) :
    updateHash b h = tailStore (directPath (fillPath b (countBytes b.length h))) := by
  have h0 : b.length ≠ 0 := fun h0 => hb (List.length_eq_zero_iff.mp h0)
  rw [updateHash, if_neg h0, if_neg (Nat.not_lt.mpr hl)]

theorem fillPath_of_empty {h : HashState} (hp : h.pendingCount.toNat = 0) (b : List Byte) :
    fillPath b h = (h, b) := by
  simp only [fillPath, hp, Nat.lt_irrefl, if_false]

theorem fillPath_of_pending {h : HashState} (hp : 0 < h.pendingCount.toNat) (b : List Byte) :
    fillPath b h =
      ({ blockMix (h.buf ++ b.take (32 - h.pendingCount.toNat)) h with buf := [], pendingCount := 0 },
        b.drop (32 - h.pendingCount.toNat)) := by
  rw [fillPath, if_pos hp]

theorem directLoop_stop {r : List Byte} (hr : r.length < 32) (k : Nat) (h : HashState) :
    directLoop k h r = (h, r) := by
  cases k with
  | zero => rfl
  | succ k => rw [directLoop, if_neg (Nat.not_le.mpr hr)]

theorem directLoop_turn {r : List Byte} (hr : 32 ≤ r.length) (k : Nat) (h : HashState) :
    directLoop (k + 1) h r = directLoop k (blockMix (r.take 32) h) (r.drop 32) := by
  rw [directLoop, if_pos hr]

/-- Step 5 writes only the lanes. -/
theorem directLoop_rest (k : Nat) (h : HashState) (r : List Byte) :
    (directLoop k h r).1.seed = h.seed ∧ (directLoop k h r).1.totalLength = h.totalLength := by
  induction k generalizing h r with
  | zero => exact ⟨rfl, rfl⟩
  | succ k ih =>
    rw [directLoop]
    split
    · obtain ⟨h1, h2⟩ := ih (blockMix (r.take 32) h) (r.drop 32)
      exact ⟨h1.trans (blockMix_seed h _), h2.trans (blockMix_totalLength h _)⟩
    · exact ⟨rfl, rfl⟩

@[simp] theorem shortPath_seed (b : List Byte) (h : HashState) : (shortPath b h).seed = h.seed := (rfl)

@[simp] theorem tailStore_seed (p : HashState × List Byte) : (tailStore p).seed = p.1.seed := (rfl)

@[simp] theorem directPath_seed (p : HashState × List Byte) : (directPath p).1.seed = p.1.seed :=
  (directLoop_rest p.2.length p.1 p.2).1

@[simp] theorem fillPath_seed (b : List Byte) (h : HashState) : (fillPath b h).1.seed = h.seed := by
  rw [fillPath]
  split
  · simp
  · rfl

/-- UPDATE never writes the seed. -/
@[simp] theorem updateHash_seed (b : List Byte) (h : HashState) :
    (updateHash b h).seed = h.seed := by
  rw [updateHash]
  split_ifs
  · rfl
  · rw [shortPath_seed, countBytes_seed]
  · rw [tailStore_seed, directPath_seed, fillPath_seed, countBytes_seed]

/-! ### The tail of DIGEST -/

theorem tailPhase8_stop {p : Word × List Byte} (hp : p.2.length < 8) (k : Nat) :
    tailPhase8 k p = p := by
  cases k with
  | zero => rfl
  | succ k => rw [tailPhase8, if_neg (Nat.not_le.mpr hp)]

theorem tailPhase8_turn {p : Word × List Byte} (hp : 8 ≤ p.2.length) (k : Nat) :
    tailPhase8 (k + 1) p = tailPhase8 k (mixTail8 p.1 p.2, p.2.drop 8) := by
  rw [tailPhase8, if_pos hp]

theorem tailPhase4_skip {p : Word × List Byte} (hp : p.2.length < 4) : tailPhase4 p = p := by
  rw [tailPhase4, if_neg (Nat.not_le.mpr hp)]

theorem tailPhase4_once {p : Word × List Byte} (hp : 4 ≤ p.2.length) :
    tailPhase4 p = (mixTail4 p.1 p.2, p.2.drop 4) := by
  rw [tailPhase4, if_pos hp]

theorem tailPhase1_stop {p : Word × List Byte} (hp : p.2.length = 0) (k : Nat) :
    tailPhase1 k p = p := by
  cases k with
  | zero => rfl
  | succ k => rw [tailPhase1, if_neg (by omega)]

theorem tailPhase1_turn {p : Word × List Byte} (hp : 1 ≤ p.2.length) (k : Nat) :
    tailPhase1 (k + 1) p = tailPhase1 k (mixTail1 p.1 p.2, p.2.drop 1) := by
  rw [tailPhase1, if_pos hp]

/-! ### The start of DIGEST -/

theorem startValue_long {h : HashState} (hl : 32 ≤ h.totalLength.toNat) :
    startValue h = combineLanes h := by
  rw [startValue, if_pos hl]

theorem startValue_short {h : HashState} (hl : h.totalLength.toNat < 32) :
    startValue h = seedStart h := by
  rw [startValue, if_neg (Nat.not_le.mpr hl)]

end Sys2Proof.Machine
end

