-- ==== Sys2Proof/Laws/Host.lean ====
section
/-!
SUPPORT. What each move of the host is, so that a proof about a step cites a move and does not unfold
the machine's step.
-/

namespace Sys2Proof.Machine

theorem step_of_send_room {s : State} {w : Word} {rest : List HostAct} (h : s.host = .send w :: rest)
    (hc : s.cmdIn.length < Config.cmdDepth) :
    step s = .next { s with cmdIn := s.cmdIn ++ [w], host := rest } := by
  simp [step, machineStep, h, hostSend, State.cmdHasRoom, hc]

theorem step_of_send_full {s : State} {w : Word} {rest : List HostAct} (h : s.host = .send w :: rest)
    (hc : Config.cmdDepth ≤ s.cmdIn.length) : step s = engineStep s := by
  simp [step, machineStep, h, hostSend, State.cmdHasRoom, Nat.not_lt.mpr hc]

theorem step_of_take_nothing {s : State} {rest : List HostAct} (h : s.host = .take :: rest)
    (hq : s.respQ = []) : step s = .next { s with host := rest } := by
  simp [step, machineStep, h, hostTake, hq]

theorem step_of_rst {s : State} {rest : List HostAct} (h : s.host = .rst :: rest) :
    step s = .next ({ s with host := rest } : State).hardwareReset := by
  simp [step, machineStep, h, hostRst]

theorem step_of_pass {s : State} {rest : List HostAct} (h : s.host = .pass :: rest) :
    step s = engineStep { s with host := rest } := by
  simp [step, machineStep, h]

/-- Everything a step of the machine can do: one act of the host, or a step of the engine, after which
the host still has its list or has passed. -/
theorem step_cases {s t : State} (h : step s = .next t) :
    (∃ w rest, s.host = .send w :: rest ∧ s.cmdIn.length < Config.cmdDepth ∧
      t = { s with cmdIn := s.cmdIn ++ [w], host := rest }) ∨
    (∃ rest, s.host = .take :: rest ∧
      t = { s with respQ := s.respQ.tail, taken := s.taken ++ s.respQ.take 1, host := rest }) ∨
    (∃ rest, s.host = .rst :: rest ∧ t = ({ s with host := rest } : State).hardwareReset) ∨
    engineStep s = .next t ∨
    (∃ rest, s.host = .pass :: rest ∧ engineStep { s with host := rest } = .next t) := by
  rcases hh : s.host with _ | ⟨a, rest⟩
  · exact .inr (.inr (.inr (.inl (step_of_quiet hh ▸ h))))
  · cases a with
    | send w =>
      by_cases hc : s.cmdIn.length < Config.cmdDepth
      · rw [step_of_send_room hh hc] at h
        exact .inl ⟨w, rest, rfl, hc, by simpa using h.symm⟩
      · exact .inr (.inr (.inr (.inl (step_of_send_full hh (Nat.not_lt.mp hc) ▸ h))))
    | take =>
      refine .inr (.inl ⟨rest, rfl, ?_⟩)
      rcases hq : s.respQ with _ | ⟨r, q⟩ <;>
        · simp only [step, machineStep, hh, hostTake, hq, Host.Outcome.next.injEq] at h
          simp [← h]
    | rst => exact .inr (.inr (.inl ⟨rest, rfl, by simpa [step_of_rst hh] using h.symm⟩))
    | pass => exact .inr (.inr (.inr (.inr ⟨rest, rfl, step_of_pass hh ▸ h⟩)))

end Sys2Proof.Machine
end

