-- ==== Sys2Proof/Laws/PerInstr.lean ====
section
/-!
SUPPORT. The family `HeaderTellsTheLength`: a command's length is told from its header alone
(30_encoding.md R81).
-/

namespace Sys2Proof.Laws.HeaderTellsTheLength

/-- R81: a well-formed command is its header and exactly as many beats as the header tells. -/
def Statement (i : Instr) : Prop :=
  i.wellFormed = true → ∃ w beats, encode i = w :: beats ∧ beats.length = payloadBeats w

theorem init (seed : Seed) : Statement (.init seed) := fun _ =>
  ⟨initHeader seed, [], rfl, by simp [payloadBeats, decodeHeader_initHeader]⟩

theorem update (hdr : Word) (chunk : List Byte) : Statement (.update hdr chunk) := fun hw => by
  simp only [Instr.wellFormed, Bool.and_eq_true, decide_eq_true_eq] at hw
  refine ⟨hdr, packBeats chunk, rfl, ?_⟩
  simp [payloadBeats, decodeHeader_of_update hw.1, hw.2]

theorem digest : Statement .digest := fun _ =>
  ⟨digestHeader, [], rfl, by simp [payloadBeats, decodeHeader_digestHeader]⟩

end Sys2Proof.Laws.HeaderTellsTheLength
end

