-- ==== Sys2Proof/Tests/Slice0.lean ====
section
/-!
SUPPORT. The model's own tests. Expected values are the spec's (95_test_vectors.md T2 to T10, 30_encoding.md
R89), or a word written out bit by bit from 30_encoding.md R71 to R78. The second half holds a witness
for the hypotheses of every obligation that has some.
-/

namespace Sys2Proof.Tests

open Sys2Proof Sys2Proof.Machine

/-! ### Helpers -/

/-- Right after reset, with words on CMD_IN. -/
def fresh (cmd : List Word) : State := { State.reset with cmdIn := cmd }

/-- Right after `INIT 0`, with words on CMD_IN. -/
def ready (cmd : List Word) : State :=
  { State.reset with initialised := true, hash := initHash 0, cmdIn := cmd }

/-- The pattern input of 95_test_vectors.md: `n` bytes from `k` on. -/
def pattern (k n : Nat) : List Byte := (List.range n).map fun i => BitVec.ofNat 8 (k + i)

/-- After `INIT 0; UPDATE 00..1E`: 31 pending bytes. -/
def pending31 (cmd : List Word) : State :=
  { ready cmd with hash := updateHash (pattern 0 31) (initHash 0) }

def record : Resp := { code := .digestOk, value := 0 }

/-- `s` with the response queue full. -/
def full (s : State) : State := { s with respQ := List.replicate Config.respDepth record }

/-- What a claim looks at in an answer; a stop answers none. -/
def after {α : Type} (f : State → α) : Result → Option α
  | .next t => some (f t)
  | .fault _ => none
  | .refused _ => none

/-- The header of an UPDATE of 3 bytes. -/
abbrev hdr3 : Word := 0x2000000000000003#64

/-! ### Well-formedness refuses -/

theorem test_wellFormed_refuses_wrong_opcode :
    (Instr.update 0x3000000000000003#64 [1, 2, 3]).wellFormed = false := by decide
theorem test_wellFormed_refuses_wrong_length :
    (Instr.update hdr3 [1, 2]).wellFormed = false := by decide
theorem test_wellFormed_accepts :
    (Instr.update hdr3 [1, 2, 3]).wellFormed = true := by decide

/-! ### Decoding is right -/

theorem test_decode_init_bit_by_bit : decode
    [0b0001_0000000000000000000000000000_00000000000000001010101111001101#64] =
    .command (.init 0xABCD#32) [] := by decide
theorem test_decode_init_top_seed : decode [0x10000000FFFFFFFF#64] =
    .command (.init 0xFFFFFFFF#32) [] := by decide
theorem test_decode_digest_bit_by_bit : decode
    [0b0011_000000000000000000000000000000000000000000000000000000000000#64] =
    .command .digest [] := by decide
theorem test_decode_update_bit_by_bit : decode
    [0b0010_000000000000000000000000000000000000000000000000000000000011#64,
     0x0000000000636261#64, 0x3000000000000000#64] =
    .command (.update hdr3 [0x61, 0x62, 0x63]) [0x3000000000000000#64] := by decide
theorem test_decode_padding_ignored : decode [hdr3, 0xFFFFFFFFFF636261#64] =
    decode [hdr3, 0x0000000000636261#64] := by decide
theorem test_encode_update_33 : encode (mkUpdate (pattern 0 33)) =
    [0x2000000000000021#64, 0x0706050403020100#64, 0x0F0E0D0C0B0A0908#64, 0x1716151413121110#64,
     0x1F1E1D1C1B1A1918#64, 0x0000000000000020#64] := by decide
theorem test_decode_reserved_words :
    [0x0000000000000000#64, 0x1000000100000000#64, 0x1FFFFFFF00000000#64, 0x3000000000000001#64,
      0x4000000000000000#64, 0xF000000000000000#64].map (fun w => decode [w]) =
    [0x0000000000000000#64, 0x1000000100000000#64, 0x1FFFFFFF00000000#64, 0x3000000000000001#64,
      0x4000000000000000#64, 0xF000000000000000#64].map (fun w => .illegal w []) := by decide
theorem test_decode_incomplete : decode [hdr3] = .incomplete := by decide
theorem test_longest_update_collects :
    after (·.seq) (step (ready [0x2FFFFFFFFFFFFFFF#64])) =
      some (.collect 0x2FFFFFFFFFFFFFFF#64 (2 ^ 57) []) := by decide

/-! ### Primitives -/

theorem test_primitives :
    P1 + P2 = 0x60EA27EEADC0B5D6#64 ∧ 0 - P1 = 0x61C8864E7A143579#64 ∧
    P1 * P2 = 0xDEF35B010F796CA9#64 ∧
    rotl64 0x0123456789ABCDEF#64 31 = 0xC4D5E6F78091A2B3#64 ∧
    rotl64 0xFEDCBA9876543210#64 11 = 0xE5D4C3B2A19087F6#64 ∧
    0xFFFFFFFFFFFFFFFF#64 >>> 33 = 0x000000007FFFFFFF#64 ∧
    readLE [0, 1, 2, 3, 4, 5, 6, 7] 0 8 = 0x0706050403020100#64 ∧
    readLE [0, 1, 2, 3, 4, 5, 6, 7] 0 4 = 0x0000000003020100#64 := by decide

/-! ### Commands, one step each -/

theorem test_init_lanes : after (fun t => (t.hash.v1, t.hash.v4, t.initialised))
    (step (fresh [0x100000000000ABCD#64])) =
    some (0x60EA27EEADC161A3#64, 0x61C8864E7A14E146#64, true) := by decide
theorem test_init_discards_the_stream : after (fun t => (t.hash, t.respQ))
    (step (pending31 [0x1000000000000000#64])) = some (initHash 0, []) := by decide

/-- T4.2 row 3: the byte that completes the block `00..1F`. -/
theorem test_update_fills_and_mixes :
    after (·.hash) (exec (.update 0x2000000000000001#64 [0x1F]) (pending31 [0])) = some
      { seed := 0, v1 := 0xF4B53B57406B5E99#64, v2 := 0xC3D34B511FC32561#64
        v3 := 0xCB26C007C8A1553F#64, v4 := 0x9A44D001A7F91C07#64
        totalLength := 32, buf := [], pendingCount := 0 } := by decide
theorem test_update_short_path : after (fun t => (t.hash.buf, t.hash.pendingCount, t.hash.totalLength))
    (exec (.update hdr3 [0x61, 0x62, 0x63]) (ready [0])) =
    some ([0x61, 0x62, 0x63], 3, 3) := by decide

/-- T5.1. -/
theorem test_digest_abc : after (fun t => (t.respQ, t.hash))
    (exec .digest { ready [digestHeader] with hash := updateHash [0x61, 0x62, 0x63] (initHash 0) }) =
    some ([{ code := .digestOk, value := 0x44BC2CF5AD770999#64 }], initHash 0) := by decide

/-- T5.2, 45 bytes: the long branch and all three tail phases. -/
theorem test_digest_long_branch :
    hashOf (pattern 0 45) 0 = 0x10FDD84D6409ABDF#64 := by decide

/-! ### Errors, reset and ports -/

theorem test_digest_uninitialised : after (·.respQ) (step (fresh [0x3000000000000000#64])) =
    some [{ code := .errNotInitialised, value := 0x3000000000000000#64 }] := by decide
theorem test_illegal_before_uninitialised : after (·.respQ) (step (fresh [0x3000000000000001#64])) =
    some [{ code := .errIllegalCommand, value := 0x3000000000000001#64 }] := by decide
theorem test_beat_is_never_decoded : after (fun t => (t.seq, t.respQ))
    (step { ready [0x3000000000000000#64] with seq := .collect 0x2000000000000010#64 2 [] }) =
    some (.collect 0x2000000000000010#64 1 [0, 0, 0, 0, 0, 0, 0, 0x30], []) := by decide
theorem test_reset_drops_payload_and_records :
    after (fun t => (t.initialised, t.seq, t.respQ, t.host))
      (step { ready [] with seq := .collect 0x2000000000000010#64 1 (pattern 0 8)
                            respQ := [record], host := [.rst, .pass] }) =
    some (false, .idle, [], [.pass]) := by decide
theorem test_assemble_blank_lines : assembleText "\n ; comment\nDIGEST\n".toList =
    some [0x3000000000000000#64] := by decide
theorem test_take_from_empty_queue : after (fun t => (t.host, t.taken))
    (step { ready [] with host := [.take] }) = some ([], []) := by decide
theorem test_record_bits : respBits { code := .errNotInitialised, value := 0x3000000000000000#64 } =
    0x23000000000000000#66 := by decide

/-! ### Placing one command -/

theorem test_table_words : [decodeTableWord 64 0x1000000000000000, decodeTableWord 64 0x2000000000000000,
    decodeTableWord 64 0x3000000000000000, decodeTableWord 64 0x3000000000000001] =
    [some (.init 0), some (.update 0x2000000000000000#64 []), some .digest, none] := by decide
theorem test_placed_update_runs : after (fun t => (t.respQ, t.seq))
    (step (State.reset.withFetchWord 64 0x2000000000000009)) =
    some ([{ code := .errNotInitialised, value := 0x2000000000000009#64 }], .idle) := by decide

/-! ### The assembler -/

theorem test_assemble_program : assembleText "INIT 0 ; seed\nUPDATE \"abc\"\nDIGEST".toList =
    some [0x1000000000000000#64, 0x2000000000000003#64, 0x0000000000636261#64,
      0x3000000000000000#64] := by decide
theorem test_assemble_hash : assembleText "HASH rep(x\"61\", 3), 0xABCD".toList =
    some [0x100000000000ABCD#64, 0x2000000000000003#64, 0x0000000000616161#64,
      0x3000000000000000#64] := by decide
theorem test_assemble_refuses : [assembleText "INIT".toList, assembleText "INIT 4294967296".toList,
    assembleText "HASH \"a\", 0x100000000".toList] = [none, none, none] := by decide
theorem test_assemble_raw_word : assembleText ".word 0x100000010000ABCD".toList =
    some [0x100000010000ABCD#64] := by decide

/-! ### A platform -/

theorem test_engine_moves_alone :
    (platformStep 1 { engines := [fresh [0x1000000000000000#64], fresh [0x1000000000000000#64]] }).engines.map
      (·.initialised) = [false, true] := by decide

/-! ## Witnesses: a state and operands that meet the hypotheses of each obligation -/

/-! ### Encoding -/

theorem witness_DecodeOfEncodeIsTheCommand : (mkUpdate (pattern 0 9)).wellFormed = true := by decide
theorem witness_DecodedCommandHasItsHeaderAndLength :
    decode [hdr3, 0x636261#64, 0#64] = .command (.update hdr3 [0x61, 0x62, 0x63]) [0#64] := by decide
theorem witness_PayloadByteLandsInItsBeat : 8 < (pattern 0 9).length := by decide
theorem witness_HeaderMatchesAtMostOneRow :
    (0x0FFFFFFFFFFFFFFF#64 : Word).extractLsb' 60 4 = 0#4 ∧
    4 ≤ ((0x4000000000000000#64 : Word).extractLsb' 60 4).toNat ∧
    4 ≤ ((0xF000000000000000#64 : Word).extractLsb' 60 4).toNat ∧
    (∀ r ∈ opcodeTable, rowMatches r 0x1000000100000000#64 = false) ∧
    (ready [0x1000000100000000#64]).host = [] ∧ (ready [0x1000000100000000#64]).seq = .idle ∧
    (ready [0x1000000100000000#64]).cmdIn = [0x1000000100000000#64] ∧
    (ready [0x1000000100000000#64]).respQ.length < Config.respDepth := by decide

/-! ### Words, framing and steps -/

theorem witness_WordIsTakenByItsDecoderCase_idle :
    (ready [0]).host = [] ∧ (ready [0]).cmdIn = [0] ∧ (ready [0]).seq = .idle ∧
    ((0x10000000FFFFFFFF#64 : Word).extractLsb' 60 4 = 0b0001#4 ∧
      (0x10000000FFFFFFFF#64 : Word).extractLsb' 32 28 = 0#28) ∧
    ((0x2000000000000000#64 : Word).extractLsb' 60 4 = 0b0010#4 ∧
      (0x2000000000000000#64 : Word).extractLsb' 0 60 = 0#60) ∧
    ((0x2000000000000001#64 : Word).extractLsb' 60 4 = 0b0010#4 ∧
      (0x2000000000000001#64 : Word).extractLsb' 0 60 ≠ 0#60) ∧
    ((0x3000000000000000#64 : Word).extractLsb' 60 4 = 0b0011#4 ∧
      (0x3000000000000000#64 : Word).extractLsb' 0 60 = 0#60) ∧
    ((0x1000000100000000#64 : Word).extractLsb' 60 4 = 0b0001#4 ∧
      (0x1000000100000000#64 : Word).extractLsb' 32 28 ≠ 0#28) ∧
    ((0x3000000000000001#64 : Word).extractLsb' 60 4 = 0b0011#4 ∧
      (0x3000000000000001#64 : Word).extractLsb' 0 60 ≠ 0#60) ∧
    4 ≤ ((0x4000000000000000#64 : Word).extractLsb' 60 4).toNat := by decide
theorem witness_WordIsTakenByItsDecoderCase_collect :
    let s : State := { ready [0] with seq := .collect hdr3 1 [] }
    let u : State := { ready [0] with seq := .collect 0x2000000000000009#64 2 [] }
    s.host = [] ∧ s.cmdIn = [0] ∧ s.seq = .collect hdr3 1 [] ∧
    u.host = [] ∧ u.cmdIn = [0] ∧ u.seq = .collect 0x2000000000000009#64 2 [] := by decide
theorem witness_WordIsTakenByItsDecoderCase_hold :
    let s := full (ready [digestHeader])
    s.host = [] ∧ s.cmdIn = [digestHeader] ∧ s.wouldRespond = true ∧
      Config.respDepth ≤ s.respQ.length :=
  ⟨rfl, rfl, by decide, by simp [full]⟩
theorem witness_StepRunsTheDecodedCommand :
    let s : State := { ready [0x08#64] with seq := .collect 0x2000000000000009#64 1 (pattern 0 8) }
    Instr.digest.wellFormed = true ∧ (ready [digestHeader]).host = [] ∧
    (ready [digestHeader]).cmdIn = [digestHeader] ∧ (ready [digestHeader]).seq = .idle ∧
    encode .digest = [digestHeader] ∧
    (mkUpdate (pattern 0 9)).wellFormed = true ∧ s.host = [] ∧ s.cmdIn = [0x08#64] ∧
    encode (mkUpdate (pattern 0 9)) =
      0x2000000000000009#64 :: [0x0706050403020100#64] ++ [0x08#64] ∧
    s.seq = .collect 0x2000000000000009#64 1 ([0x0706050403020100#64].flatMap beatBytes) := by decide
theorem witness_PlacedTableWordRunsItsCommand :
    decodeTableWord 64 0x2000000000000001 = some (.update 0x2000000000000001#64 [0]) := by decide
theorem witness_WordsAfterUpdateHeaderArePayload :
    let s := ready [0x2000000000000010#64, digestHeader]
    s.host = [] ∧ s.seq = .idle ∧ s.cmdIn = 0x2000000000000010#64 :: [digestHeader] ++ [] ∧
    (0x2000000000000010#64 : Word).extractLsb' 60 4 = 0b0010#4 ∧
    [digestHeader].length < (((0x2000000000000010#64 : Word).extractLsb' 0 60).toNat + 7) / 8 := by
  decide
theorem witness_PaddingBytesAreIgnored :
    (ready []).host = [] ∧ (Sequencer.collect hdr3 1 []).Framed ∧ (ready []).initialised = true ∧
    (∀ j, j < 8 → ([] : List Byte).length + j < (lenOf hdr3).toNat →
      (0xFFFFFFFFFF636261#64 : Word).extractLsb' (8 * j) 8 =
        (0x0000000000636261#64 : Word).extractLsb' (8 * j) 8) :=
  ⟨rfl, ⟨by decide, by decide, by decide, by decide⟩, rfl, by decide⟩
theorem witness_CommandWordsRunTheCommand :
    let i := mkUpdate (pattern 0 9)
    let s := fresh (encode i ++ [digestHeader])
    i.wellFormed = true ∧ s.host = [] ∧ s.seq = .idle ∧ s.cmdIn = encode i ++ [digestHeader] ∧
    s.respQ.length < Config.respDepth := by decide

/-! ### Commands -/

/-- An initialised engine with 31 pending bytes and room: the hypotheses of UpdateMixesWholeBlocksInOrder,
EmptyUpdateChangesNothing, UpdatesConcatenate, CommandsKeepThePendingCount, LanesUntouchedBelow32Bytes,
DigestAnswersAndReinitialises, SecondDigestIsOfTheEmptyInput, ReuseAfterDigestHashesAfresh,
SplitUpdateEqualsOneUpdate, WhichCommandsRespond and InitWritesThePostInitState. -/
theorem witness_ready_engine :
    let s := pending31 [0]
    s.initialised = true ∧ s.hash.Sized ∧ s.hash.Counted ∧ s.respQ.length < Config.respDepth ∧
    ([] : List Resp).length < Config.respDepth ∧ s.hash.totalLength.toNat < 32 := by
  refine ⟨rfl, ?_, ?_, by decide, by decide, by decide⟩
  · show (pending31 [0]).hash.buf.length = _
    decide
  · show (pending31 [0]).hash.pendingCount.toNat = _
    decide
/-- An uninitialised engine with room; also for UninitialisedHashingFieldsAreNeverRead and
WhichCommandsRespond. -/
theorem witness_InitIsAcceptedInEveryState :
    (fresh [0]).initialised = false ∧ (fresh [0]).respQ.length < Config.respDepth := by decide
theorem witness_ShortUpdateOnlyBuffers : (ready [0]).initialised = true ∧ pattern 0 31 ≠ [] ∧
    (ready [0]).hash.pendingCount.toNat + (pattern 0 31).length < 32 := by decide
theorem witness_LanesUntouchedBelow32Bytes :
    (ready [0]).hash.totalLength.toNat + (pattern 0 31).length < 32 ∧
    32 ≤ (pending31 [0]).hash.totalLength.toNat + (pattern 31 1).length ∧
    (pending31 [0]).hash.totalLength.toNat + (pattern 31 32).length < 64 := by decide
theorem witness_BlockMixRoundsEachLane : (pattern 0 32).length = 32 := by decide
theorem witness_TailMixConsumesLeftToRight :
    8 ≤ (pattern 0 8).length ∧ (4 ≤ (pattern 0 4).length ∧ (pattern 0 7).length < 8) ∧
    (1 ≤ (pattern 0 1).length ∧ (pattern 0 3).length < 4) := by decide
theorem witness_DigestDoesNotReadLanesWhenShort :
    let s := pending31 [0]
    let s' : State := { s with hash := { s.hash with v1 := 7 } }
    s.initialised = true ∧ s'.initialised = true ∧ s.respQ = s'.respQ ∧
    s.respQ.length < Config.respDepth ∧ s.hash.seed = s'.hash.seed ∧
    s.hash.totalLength = s'.hash.totalLength ∧ s.hash.buf = s'.hash.buf ∧
    s.hash.totalLength.toNat < 32 := by decide
theorem witness_DigestDoesNotReadLanes_long :
    let s : State := { pending31 [0] with hash := updateHash (pattern 31 1) (pending31 [0]).hash }
    let s' : State := { s with cmdIn := [1, 2] }
    s.initialised = true ∧ s'.initialised = true ∧ s.respQ = s'.respQ ∧
    s.respQ.length < Config.respDepth ∧ s.hash = s'.hash ∧ 32 ≤ s.hash.totalLength.toNat := by decide

/-! ### Whole streams -/

theorem witness_HashAnswersTheOneShotHash :
    (pending31 []).host = [] ∧ (pending31 []).seq = .idle ∧
    (pending31 []).respQ.length < Config.respDepth := by decide
theorem witness_ChunkingDoesNotChangeTheDigest :
    ∀ c ∈ [pattern 0 5, [], pattern 5 64], c.length < 2 ^ 60 := by decide
theorem witness_AssemblerRefusesWideNumbers :
    2 ^ 32 - 1 < 2 ^ 32 ∧ 2 ^ 32 ≤ 2 ^ 32 ∧ 2 ^ 64 - 1 < 2 ^ 64 ∧ 2 ^ 64 ≤ 2 ^ 64 := by decide

/-! ### Errors -/

theorem witness_IllegalHeaderIsReported :
    let s := ready [0x3800000000000000#64]
    s.host = [] ∧ s.cmdIn = [0x3800000000000000#64] ∧ s.respQ.length < Config.respDepth ∧
    s.seq = .idle ∧ (0x3800000000000000#64 : Word).extractLsb' 60 4 = 3#4 ∧
    (0x3800000000000000#64 : Word).extractLsb' 0 60 ≠ 0#60 ∧
    ({ s with seq := .collect hdr3 1 [] } : State).seq ≠ .idle := by decide
theorem witness_UninitialisedCommandIsReported :
    let s := fresh [hdr3, 0x636261#64]
    s.initialised = false ∧ s.respQ.length < Config.respDepth ∧ s.host = [] ∧ s.seq = .idle ∧
    s.cmdIn = hdr3 :: [0x636261#64] ++ [] ∧ (hdr3 : Word).extractLsb' 60 4 = 0b0010#4 ∧
    [0x636261#64].length = (((hdr3 : Word).extractLsb' 0 60).toNat + 7) / 8 := by decide
theorem witness_FirstErrorThatHoldsIsReported :
    let s := fresh [0x3000000000000001#64]
    s.host = [] ∧ s.seq = .idle ∧ s.cmdIn = [0x3000000000000001#64] ∧
    s.respQ.length < Config.respDepth ∧ s.initialised = false ∧
    (0x3000000000000001#64 : Word).extractLsb' 60 4 = 3#4 ∧
    (0x3000000000000001#64 : Word).extractLsb' 0 60 ≠ 0#60 ∧
    (0x2000000000000000#64 : Word).extractLsb' 60 4 = 2#4 ∧
    (0x2000000000000000#64 : Word).extractLsb' 0 60 = 0#60 ∧
    (hdr3 : Word).extractLsb' 0 60 ≠ 0#60 := by decide
theorem witness_RaiseOnlyAppendsItsRecord :
    (fresh [0]).respQ.length < Config.respDepth ∧
    Config.respDepth ≤ (full (fresh [0])).respQ.length :=
  ⟨by decide, by simp [full]⟩

/-! ### Ports, holds and reset -/

theorem witness_EveryStepAnswersANextState : (pending31 []).host = [] ∧ (pending31 []).cmdIn = [] ∧
    (pending31 []).seq = .idle := by decide
theorem witness_TakeRemovesTheHeadRecord :
    let s : State := { ready [] with host := [.take], respQ := [record] }
    s.host = .take :: [] ∧ s.respQ = record :: [] := by decide
theorem witness_FullResponseQueueHoldsTheStep : (full (ready [digestHeader])).Held ∧
    (full (ready [digestHeader])).host = [] :=
  ⟨⟨by decide, by simp [full]⟩, rfl⟩
theorem witness_FullResponseQueueHoldsTheStep_take :
    let s : State := { full (ready [digestHeader]) with host := [.take] }
    s.Held ∧ s.host = [.take] ∧
    s.respQ = record :: List.replicate Config.respDepthLessOne record ∧
    s.respQ.length = Config.respDepth :=
  ⟨⟨by decide, by simp [full]⟩, rfl, rfl, by simp [full]⟩
theorem witness_UnheldWordIsAccepted :
    (full (ready [initHeader 5])).host = [] ∧ (full (ready [initHeader 5])).cmdIn = [initHeader 5] ∧
    ¬(full (ready [initHeader 5])).Held :=
  ⟨rfl, rfl, fun h => absurd h.1 (by decide)⟩
theorem witness_SentWordWaitsForRoom :
    let s : State := { ready [] with host := [.send 0] }
    let u : State := { s with cmdIn := List.replicate Config.cmdDepth 0 }
    s.host = [.send 0] ∧ s.cmdIn.length < Config.cmdDepth ∧
    u.host = [.send 0] ∧ Config.cmdDepth ≤ u.cmdIn.length :=
  ⟨rfl, by decide, rfl, by simp⟩
theorem witness_CommandDepthNeverChangesTheResult :
    ∃ t, runFor [digestHeader].length ((ready []).loaded [digestHeader]) = .next t ∧ t.cmdIn = [] :=
  ⟨_, rfl, rfl⟩
theorem witness_QueuedWordsAreConsumed : (ready [digestHeader]).host = [] ∧
    (ready [digestHeader]).respQ.length + (ready [digestHeader]).cmdIn.length ≤ Config.respDepth :=
  ⟨rfl, Config.respDepth_pos⟩
theorem witness_HardwareResetIsOneStep :
    ({ ready [0] with host := [.rst] } : State).host = .rst :: [] := by decide

/-! ### Invariants and whole-machine rules -/

theorem witness_StepKeepsTheInvariant : (ready []).Inv ∧ step (ready []) = .next (ready []) :=
  ⟨⟨rfl, fun _ => rfl, trivial, Nat.zero_le _, Nat.zero_le _⟩, rfl⟩
theorem witness_FlagSetByInitClearedByReset :
    (after (·.initialised) (step { ready [] with host := [.rst] }) = some false ∧
      (ready []).initialised = true) ∧
    (after (·.initialised) (step (fresh [0x1000000000000000#64])) = some true ∧
      (fresh [0x1000000000000000#64]).initialised = false) := by decide
/-- Each command answers a next state: the hypothesis of FlagSetByInitClearedByReset (first clause),
OnlyInitWritesTheSeed and CommandFrame. -/
theorem witness_command_answers_next :
    after (·.hash.seed) (exec (.init 5) (fresh [0])) = some 5 ∧
    after (·.hash.seed) (exec (.update hdr3 [1, 2, 3]) (ready [0])) = some 0 ∧
    after (·.hash.seed) (exec .digest (ready [0])) = some 0 := by decide
theorem witness_OnlyInitWritesTheSeed_step :
    let s : State := { ready [] with hash := initHash 5, host := [.rst] }
    after (·.hash.seed) (step (fresh [0x1000000000000005#64])) = some 5 ∧
    (5 : Seed) ≠ (fresh [0x1000000000000005#64]).hash.seed ∧
    after (·.hash.seed) (step s) = some 0 ∧ (0 : Seed) ≠ s.hash.seed := by decide
theorem witness_CommandFrame_held :
    exec .digest (full (ready [0])) = .next (full (ready [0])) ∧
      Config.respDepth ≤ (full (ready [0])).respQ.length :=
  ⟨(exec_digest_ready rfl).trans (respond_of_full (by simp [full]) _ _ _), by simp [full]⟩
theorem witness_CommandFrame_error :
    after (·.respQ) (exec .digest (fresh [0])) =
      some ((fresh [0]).respQ ++ [{ code := .errNotInitialised, value := digestHeader }]) := by decide
theorem witness_EnginesShareNothing :
    let p : Platform := { engines := [fresh [], ready []] }
    let p' : Platform := { engines := [fresh [], fresh []] }
    1 ≠ 0 ∧ p.engines[0]? = p'.engines[0]? := by decide

/-! ### Primitives -/

theorem witness_RotationWrapsBitsAround : 0 < 1 ∧ 1 < 64 ∧ 0 < 63 ∧ 63 < 64 := by decide
theorem witness_ReadLEIsTheLittleEndianSum :
    5 + 1 ≤ (pattern 0 6).length ∧ 2 + 4 ≤ (pattern 0 6).length ∧ 0 + 8 ≤ (pattern 0 8).length := by
  decide

end Sys2Proof.Tests
end

/-!
PROOFS. Which command queue depth a device has decides only when words move (70_reset_and_hazards.md
R235), and what a little-endian stream read is as a natural number (40_primitives.md R107).
-/

namespace Sys2Proof.Machine

/-! ### A whole list of words on `S` -/

/-- What the words `ws` do to `S`, in order; none where one of them is held. -/
def EngineCore.acceptAll (e : EngineCore) (ws : List Word) : Option EngineCore :=
  ws.foldlM EngineCore.accept e

@[simp] theorem EngineCore.acceptAll_nil (e : EngineCore) : e.acceptAll [] = some e := rfl

theorem EngineCore.acceptAll_cons (e : EngineCore) (w : Word) (ws : List Word) :
    e.acceptAll (w :: ws) = (e.accept w).bind fun e' => e'.acceptAll ws := rfl

/-! ### Steps and runs of the machine in terms of `S` -/

theorem engineStep_of_accept {e e' : EngineCore} {w : Word} (ha : e.accept w = some e')
    (cs : List Word) (l : List HostAct) (k : List Resp) :
    engineStep (e.withPorts (w :: cs) l k) = .next (e'.withPorts cs l k) := by
  rw [engineStep_withPorts, ha]

theorem engineStep_of_held {e : EngineCore} {w : Word} (ha : e.accept w = none)
    (cs : List Word) (l : List HostAct) (k : List Resp) :
    engineStep (e.withPorts (w :: cs) l k) = .next (e.withPorts (w :: cs) l k) := by
  rw [engineStep_withPorts, ha]

/-- A step that changes nothing is repeated for ever. -/
theorem runFor_of_step_self {s : State} (h : step s = .next s) (k : Nat) :
    runFor k s = .next s := by
  induction k with
  | zero => rfl
  | succ k ih => rw [runFor_succ h, ih]

/-- With the host at rest, one step a word consumes all of CMD_IN only where no word is held. -/
theorem acceptAll_of_runFor_consumes {cs : List Word} {e : EngineCore} {k : List Resp} {t : State}
    (hrun : runFor cs.length (e.withPorts cs [] k) = .next t) (ht : t.cmdIn = []) :
    ∃ e', e.acceptAll cs = some e' ∧ t = e'.withPorts [] [] k := by
  induction cs generalizing e with
  | nil => exact ⟨e, rfl, (Host.Outcome.next.inj hrun).symm⟩
  | cons w cs ih =>
    have hstep : step (e.withPorts (w :: cs) [] k) = engineStep (e.withPorts (w :: cs) [] k) :=
      step_of_quiet rfl
    cases ha : e.accept w with
    | none =>
      rw [engineStep_of_held ha] at hstep
      rw [runFor_of_step_self hstep, Host.Outcome.next.injEq] at hrun
      subst hrun
      exact nomatch ht
    | some e₁ =>
      rw [engineStep_of_accept ha] at hstep
      rw [List.length_cons, runFor_succ hstep] at hrun
      obtain ⟨e', hall, rfl⟩ := ih hrun
      exact ⟨e', by rw [EngineCore.acceptAll_cons, ha, Option.bind_some, hall], rfl⟩

/-! ### A host that sends, through a queue of any depth -/

/-- `S` as `e`, the words `cs` on CMD_IN, and a host that still has the words `ps` to send. -/
def EngineCore.midSend (e : EngineCore) (cs ps : List Word) (k : List Resp) : State :=
  e.withPorts cs (ps.map .send) k

/-- The host sends its next word while there is room for it. -/
theorem step_midSend_of_room {cs : List Word} (hroom : cs.length < Config.cmdDepth)
    (e : EngineCore) (p : Word) (ps : List Word) (k : List Resp) :
    step (e.midSend cs (p :: ps) k) = .next (e.midSend (cs ++ [p]) ps k) :=
  step_of_send_room rfl hroom

/-- The engine accepts the head word while the host has no word to send or no room for it. -/
theorem step_midSend_of_accept {e e' : EngineCore} {c : Word} {cs ps : List Word}
    (ha : e.accept c = some e') (hps : ps = [] ∨ Config.cmdDepth ≤ (c :: cs).length)
    (k : List Resp) : step (e.midSend (c :: cs) ps k) = .next (e'.midSend cs ps k) := by
  have hengine : step (e.midSend (c :: cs) ps k) = engineStep (e.midSend (c :: cs) ps k) := by
    cases ps with
    | nil => exact step_of_quiet rfl
    | cons p ps => exact step_of_send_full rfl (hps.resolve_left (List.cons_ne_nil p ps))
  exact hengine.trans (engineStep_of_accept ha cs _ k)

/-- Every word not yet on CMD_IN takes two moves, one in and one out, and every word there takes
one, whichever of host and engine the depth lets move first. -/
theorem runFor_midSend {n : Nat} {e e' : EngineCore} {cs ps : List Word} (k : List Resp)
    (hn : cs.length + 2 * ps.length = n) (hall : e.acceptAll (cs ++ ps) = some e') :
    runFor n (e.midSend cs ps k) = .next (e'.midSend [] [] k) := by
  induction n generalizing e cs ps with
  | zero =>
    obtain rfl : cs = [] := List.length_eq_zero_iff.mp (by omega)
    obtain rfl : ps = [] := List.length_eq_zero_iff.mp (by omega)
    rw [List.append_nil, EngineCore.acceptAll_nil, Option.some.injEq] at hall
    rw [runFor_zero, hall]
  | succ n ih =>
    by_cases hsend : ps ≠ [] ∧ cs.length < Config.cmdDepth
    · obtain ⟨hps, hroom⟩ := hsend
      obtain ⟨p, ps, rfl⟩ := List.exists_cons_of_ne_nil hps
      rw [runFor_succ (step_midSend_of_room hroom e p ps k)]
      refine ih ?_ (by rwa [List.append_assoc, List.singleton_append])
      simp only [List.length_append, List.length_cons, List.length_nil] at hn ⊢
      omega
    · have hblocked : ps = [] ∨ Config.cmdDepth ≤ cs.length := by
        rwa [not_and_or, not_not, not_lt] at hsend
      have hcs : cs ≠ [] := by
        rintro rfl
        rcases hblocked with rfl | hfull
        · exact absurd hn (by simp)
        · exact absurd hfull (Nat.not_le.mpr Config.cmdDepth_pos)
      obtain ⟨c, cs, rfl⟩ := List.exists_cons_of_ne_nil hcs
      rw [List.cons_append, EngineCore.acceptAll_cons, Option.bind_eq_some_iff] at hall
      obtain ⟨e₁, ha, hall⟩ := hall
      rw [runFor_succ (step_midSend_of_accept ha hblocked k)]
      refine ih ?_ hall
      rw [List.length_cons] at hn
      omega

/-- Settles O43: the loaded run shows that no word is held (`acceptAll_of_runFor_consumes`), and
then every depth's run reaches what the words do to `S` (`runFor_midSend`). -/
theorem commandDepthNeverChangesTheResult : Obligations.CommandDepthNeverChangesTheResult := by
  unfold Obligations.CommandDepthNeverChangesTheResult
  intro ws s t hrun ht
  obtain ⟨e', hall, rfl⟩ := acceptAll_of_runFor_consumes (e := s.engine) (k := s.taken) hrun ht
  exact runFor_midSend (e := s.engine) (cs := []) (ps := ws) s.taken (by simp) hall

/-! ### `readLE` as a natural number -/

theorem toNat_readLE_succ_mod (b : List Byte) (off k : Nat) :
    (readLE b off (k + 1)).toNat =
      ((readLE b off k).toNat + (b.getD (off + k) 0).toNat * 2 ^ (8 * k)) % 2 ^ 64 := by
  have hbyte : (zextByte (b.getD (off + k) 0)).toNat = (b.getD (off + k) 0).toNat :=
    BitVec.toNat_setWidth_of_le (by decide)
  rw [readLE, BitVec.toNat_add, BitVec.toNat_shiftLeft, hbyte, Nat.shiftLeft_eq, Nat.add_mod_mod]

/-- One more byte on top of `k` bytes gives less than `2^(8(k+1))`. -/
theorem add_byte_mul_two_pow_lt {x k : Nat} (hx : x < 2 ^ (8 * k)) (c : Byte) :
    x + c.toNat * 2 ^ (8 * k) < 2 ^ (8 * (k + 1)) := by
  have hc : c.toNat + 1 ≤ 2 ^ 8 := c.isLt
  calc x + c.toNat * 2 ^ (8 * k) < (c.toNat + 1) * 2 ^ (8 * k) := by
        rw [Nat.add_one_mul c.toNat, Nat.add_comm x]
        exact Nat.add_lt_add_left hx _
    _ ≤ 2 ^ 8 * 2 ^ (8 * k) := Nat.mul_le_mul_right _ hc
    _ = 2 ^ (8 * (k + 1)) := by rw [← Nat.pow_add]; congr 1; omega

theorem toNat_readLE_lt (b : List Byte) (off n : Nat) : (readLE b off n).toNat < 2 ^ (8 * n) := by
  induction n with
  | zero => simp [readLE]
  | succ k ih =>
    rw [toNat_readLE_succ_mod]
    exact (Nat.mod_le _ _).trans_lt (add_byte_mul_two_pow_lt ih _)

/-- No sum of up to eight bytes wraps. -/
theorem toNat_readLE_succ (b : List Byte) (off : Nat) {k : Nat} (hk : k < 8) :
    (readLE b off (k + 1)).toNat =
      (readLE b off k).toNat + (b.getD (off + k) 0).toNat * 2 ^ (8 * k) := by
  rw [toNat_readLE_succ_mod, Nat.mod_eq_of_lt]
  calc (readLE b off k).toNat + (b.getD (off + k) 0).toNat * 2 ^ (8 * k)
      < 2 ^ (8 * (k + 1)) := add_byte_mul_two_pow_lt (toNat_readLE_lt b off k) _
    _ ≤ 2 ^ 64 := Nat.pow_le_pow_right (by decide) (by omega)

theorem toNat_readLE (b : List Byte) (off : Nat) {n : Nat} (hn : n ≤ 8) :
    (readLE b off n).toNat =
      ((List.range n).map fun k => (b.getD (off + k) 0).toNat * 2 ^ (8 * k)).sum := by
  induction n with
  | zero => rfl
  | succ k ih =>
    rw [toNat_readLE_succ b off hn, ih (Nat.le_of_succ_le hn), List.range_succ, List.map_append,
      List.sum_append, List.map_singleton, List.sum_singleton]

/-- Settles O58, which needs of `n` only that it is at most 8. -/
theorem readLEIsTheLittleEndianSum : Obligations.ReadLEIsTheLittleEndianSum := by
  unfold Obligations.ReadLEIsTheLittleEndianSum
  intro b off n hn _
  exact toNat_readLE b off (by omega)

end Sys2Proof.Machine

/-!
PROOFS. What every command and every step keeps of the state (10_state.md R23 to R30, R39).
-/

namespace Sys2Proof.Machine

/-! ### Moves of the host, and steps of either -/

theorem step_of_take {s : State} {rest : List HostAct} (h : s.host = .take :: rest) :
    step s = .next
      { s with respQ := s.respQ.tail, taken := s.taken ++ s.respQ.take 1, host := rest } := by
  rcases hq : s.respQ with _ | ⟨r, q⟩
  · rw [step_of_take_nothing h hq]
    simp [hq]
  · simp [step, machineStep, h, hostTake, hq]

/-- Settles O39, as the case of `step_of_take` with a record to take. -/
theorem takeRemovesTheHeadRecord : Obligations.TakeRemovesTheHeadRecord := by
  unfold Obligations.TakeRemovesTheHeadRecord
  intro s rest r q hh hq
  rw [step_of_take hh, hq]
  rfl

theorem engineStep_answers_next (s : State) : ∃ t, engineStep s = .next t := by
  rcases hc : s.cmdIn with _ | ⟨w, rest⟩
  · exact ⟨s, engineStep_of_empty hc⟩
  · exact ⟨_, engineStep_of_word hc⟩

theorem step_answers_next (s : State) : ∃ t, step s = .next t := by
  rcases hh : s.host with _ | ⟨a, rest⟩
  · rw [step_of_quiet hh]
    exact engineStep_answers_next s
  · cases a with
    | send w =>
      by_cases hc : s.cmdIn.length < Config.cmdDepth
      · exact ⟨_, step_of_send_room hh hc⟩
      · rw [step_of_send_full hh (Nat.not_lt.mp hc)]
        exact engineStep_answers_next s
    | take => exact ⟨_, step_of_take hh⟩
    | rst => exact ⟨_, step_of_rst hh⟩
    | pass =>
      rw [step_of_pass hh]
      exact engineStep_answers_next _

/-- Settles O48; the machine's reset state is the model's by the host's own check. -/
theorem resetStateIsUninitialisedIdleEmpty : Obligations.ResetStateIsUninitialisedIdleEmpty := by
  unfold Obligations.ResetStateIsUninitialisedIdleEmpty
  exact ⟨rfl, rfl, rfl, Host.Check.core_reset⟩

/-! ### What an UPDATE leaves in the buffer and the two counts -/

/-- Step 5, with turns enough, mixes every whole block that is left. -/
theorem directLoop_rest_length {k : Nat} {r : List Byte} (hk : r.length ≤ k) (h : HashState) :
    (directLoop k h r).2.length = r.length % 32 := by
  induction k generalizing h r with
  | zero =>
    have h0 : r.length = 0 := Nat.le_zero.mp hk
    rw [directLoop_stop (by omega), h0]
  | succ k ih =>
    by_cases hr : 32 ≤ r.length
    · rw [directLoop_turn hr, ih (by rw [List.length_drop]; omega), List.length_drop]
      omega
    · rw [directLoop_stop (Nat.not_le.mp hr), Nat.mod_eq_of_lt (Nat.not_le.mp hr)]

theorem directPath_rest_length (p : HashState × List Byte) :
    (directPath p).2.length = p.2.length % 32 :=
  directLoop_rest_length le_rfl p.1

/-- Completing the pending block takes away as many bytes as it lacks: 32 together with those pending. -/
theorem fillPath_rest_length {b : List Byte} {h : HashState}
    (hl : 32 ≤ h.pendingCount.toNat + b.length) :
    (fillPath b h).2.length % 32 = (h.pendingCount.toNat + b.length) % 32 := by
  have hlt : h.pendingCount.toNat < 32 := h.pendingCount.isLt
  by_cases hp : 0 < h.pendingCount.toNat
  · rw [fillPath_of_pending hp, List.length_drop]
    omega
  · have h0 : h.pendingCount.toNat = 0 := by omega
    rw [fillPath_of_empty h0, h0, Nat.zero_add]

@[simp] theorem fillPath_totalLength (b : List Byte) (h : HashState) :
    (fillPath b h).1.totalLength = h.totalLength := by
  rw [fillPath]
  split
  · exact blockMix_totalLength h (h.buf ++ b.take (32 - h.pendingCount.toNat))
  · rfl

@[simp] theorem directPath_totalLength (p : HashState × List Byte) :
    (directPath p).1.totalLength = p.1.totalLength :=
  (directLoop_rest p.2.length p.1 p.2).2

@[simp] theorem shortPath_totalLength (b : List Byte) (h : HashState) :
    (shortPath b h).totalLength = h.totalLength := (rfl)

@[simp] theorem tailStore_totalLength (p : HashState × List Byte) :
    (tailStore p).totalLength = p.1.totalLength := (rfl)

theorem shortPath_pendingCount (b : List Byte) (h : HashState) :
    (shortPath b h).pendingCount.toNat = (h.pendingCount.toNat + b.length) % 32 :=
  BitVec.toNat_ofNat _ _

theorem tailStore_directPath_pendingCount (p : HashState × List Byte) :
    (tailStore (directPath p)).pendingCount.toNat = p.2.length % 32 := by
  rw [tailStore, BitVec.toNat_ofNat, directPath_rest_length]
  exact Nat.mod_mod _ 32

theorem shortPath_sized {b : List Byte} {h : HashState} (hs : h.Sized)
    (hl : h.pendingCount.toNat + b.length < 32) : (shortPath b h).Sized := by
  have hb : h.buf.length = h.pendingCount.toNat := hs
  rw [HashState.Sized, shortPath_pendingCount, Nat.mod_eq_of_lt hl, ← hb]
  exact List.length_append

theorem tailStore_directPath_sized (p : HashState × List Byte) :
    (tailStore (directPath p)).Sized :=
  (directPath_rest_length p).trans (tailStore_directPath_pendingCount p).symm

theorem updateHash_totalLength (b : List Byte) (h : HashState) :
    (updateHash b h).totalLength = h.totalLength + zextLen b.length := by
  rw [updateHash]
  split_ifs with h0
  · rw [h0]
    exact (BitVec.add_zero _).symm
  · rw [shortPath_totalLength, countBytes_totalLength]
  · rw [tailStore_totalLength, directPath_totalLength, fillPath_totalLength, countBytes_totalLength]

theorem updateHash_pendingCount (b : List Byte) (h : HashState) :
    (updateHash b h).pendingCount.toNat = (h.pendingCount.toNat + b.length) % 32 := by
  rw [updateHash]
  split_ifs with h0 hl
  · rw [h0, Nat.add_zero, Nat.mod_eq_of_lt h.pendingCount.isLt]
  · rw [shortPath_pendingCount, countBytes_pendingCount]
  · rw [tailStore_directPath_pendingCount]
    exact fillPath_rest_length (h := countBytes b.length h) (Nat.not_lt.mp hl)

theorem updateHash_sized {h : HashState} (hs : h.Sized) (b : List Byte) :
    (updateHash b h).Sized := by
  rw [updateHash]
  split_ifs with h0 hl
  · exact hs
  · exact shortPath_sized (h := countBytes b.length h) hs hl
  · exact tailStore_directPath_sized _

/-! ### The buffer and the counts agree -/

/-- The buffer is as long as the pending count says, and on a ready engine that is the byte count
modulo 32 (10_state.md R26, R27). -/
def HashState.Tracked (ready : Bool) (h : HashState) : Prop :=
  h.Sized ∧ (ready = true → h.Counted)

theorem HashState.blank_tracked : HashState.blank.Tracked false := ⟨rfl, nofun⟩

theorem initHash_tracked (ready : Bool) (seed : Seed) : (initHash seed).Tracked ready :=
  ⟨rfl, fun _ => rfl⟩

/-- 2^64 is a multiple of 32, so the wrap of the byte count does not matter. -/
theorem updateHash_tracked {ready : Bool} {h : HashState} (ht : h.Tracked ready) (b : List Byte) :
    (updateHash b h).Tracked ready := by
  obtain ⟨hsized, hcounted⟩ := ht
  refine ⟨updateHash_sized hsized b, fun hr => ?_⟩
  have hc : h.pendingCount.toNat = h.totalLength.toNat % 32 := hcounted hr
  rw [HashState.Counted, updateHash_pendingCount, updateHash_totalLength, zextLen,
    BitVec.toNat_add, BitVec.toNat_ofNat]
  omega

/-! ### Commands -/

/-- Everything a command can do, with the held step and the recorded answer told apart. -/
theorem exec_ends_or_is_held {i : Instr} {s t : State} (h : exec i s = .next t) :
    (∃ seed, i = .init seed ∧ t = s.endCommand.setInitialised.setHash (initHash seed)) ∨
    (∃ hdr b, i = .update hdr b ∧ s.initialised = true ∧
      t = s.endCommand.setHash (updateHash b s.hash)) ∨
    (i = .digest ∧ s.initialised = true ∧ s.respQ.length < Config.respDepth ∧
      t = (s.setHash (initHash s.hash.seed)).endCommand.emit .digestOk (digestValue s.hash)) ∨
    (∃ w, (i = .digest ∨ ∃ b, i = .update w b) ∧ s.initialised = false ∧
      s.respQ.length < Config.respDepth ∧ t = s.endCommand.emit .errNotInitialised w) ∨
    ((i = .digest ∨ s.initialised = false ∧ ∃ hdr b, i = .update hdr b) ∧
      Config.respDepth ≤ s.respQ.length ∧ t = s) := by
  rcases exec_cases h with hinit | hupdate | ⟨rfl, hi, hr⟩ | ⟨w, hi, hw, hr⟩
  · exact .inl hinit
  · exact .inr (.inl hupdate)
  · rcases respond_cases hr with ⟨hroom, ht⟩ | ⟨hfull, ht⟩
    · exact .inr (.inr (.inl ⟨rfl, hi, hroom, ht⟩))
    · exact .inr (.inr (.inr (.inr ⟨.inl rfl, hfull, ht⟩)))
  · rcases respond_cases hr with ⟨hroom, ht⟩ | ⟨hfull, ht⟩
    · exact .inr (.inr (.inr (.inl ⟨w, hw.imp And.left id, hi, hroom, ht⟩)))
    · exact .inr (.inr (.inr (.inr
        ⟨hw.imp And.left fun ⟨b, hb⟩ => ⟨hi, w, b, hb⟩, hfull, ht⟩)))

theorem respond_answers_next (c : RespCode) (v : Word) (t s : State) :
    ∃ u, respond c v t s = .next u := by
  by_cases hr : s.respQ.length < Config.respDepth
  · exact ⟨_, respond_of_room hr c v t⟩
  · exact ⟨s, respond_of_full (Nat.not_lt.mp hr) c v t⟩

theorem exec_answers_next (i : Instr) (s : State) : ∃ t, exec i s = .next t := by
  cases i with
  | init seed => exact ⟨_, exec_init seed s⟩
  | update hdr b =>
    cases hi : s.initialised with
    | true => exact ⟨_, exec_update_ready hi hdr b⟩
    | false => rw [exec_update_notReady hi]; exact respond_answers_next _ _ _ _
  | digest =>
    cases hi : s.initialised with
    | true => rw [exec_digest_ready hi]; exact respond_answers_next _ _ _ _
    | false => rw [exec_digest_notReady hi]; exact respond_answers_next _ _ _ _

theorem exec_keeps_tracked {i : Instr} {s t : State} (h : exec i s = .next t)
    (hs : s.hash.Tracked s.initialised) : t.hash.Tracked t.initialised := by
  rcases exec_ends_or_is_held h with ⟨seed, -, rfl⟩ | ⟨_, b, -, -, rfl⟩ | ⟨-, -, -, rfl⟩ |
    ⟨w, -, -, -, rfl⟩ | ⟨-, -, rfl⟩
  · exact initHash_tracked _ seed
  · exact updateHash_tracked hs b
  · exact initHash_tracked _ _
  · exact hs
  · exact hs

/-- Settles O21, by the case of the command (`exec_keeps_tracked`). -/
theorem commandsKeepThePendingCount : Obligations.CommandsKeepThePendingCount := by
  unfold Obligations.CommandsKeepThePendingCount
  intro i s hsized hcounted
  obtain ⟨t, ht⟩ := exec_answers_next i s
  obtain ⟨hsized', hcounted'⟩ := exec_keeps_tracked ht ⟨hsized, hcounted⟩
  exact ⟨t, ht, hsized', t.hash.pendingCount.isLt, hcounted'⟩

/-- Settles O53, by the ways a command can end or be held. -/
theorem commandFrame : Obligations.CommandFrame := by
  unfold Obligations.CommandFrame
  intro i s t h
  rcases exec_ends_or_is_held h with ⟨seed, rfl, rfl⟩ | ⟨hdr, b, rfl, hi, rfl⟩ |
    ⟨rfl, hi, hroom, rfl⟩ | ⟨w, hw, hi, hroom, rfl⟩ | ⟨hw, hfull, rfl⟩
  · simp
  · simp
  · simp [hroom]
  · rcases hw with rfl | ⟨b, rfl⟩ <;> simp [hroom, hi]
  · simp [hfull]

/-! ### The flag and the seed -/

/-- A word accepted at Idle as an INIT header writes the flag and the seed, and no other word does. -/
theorem EngineCore.accept_init_or_keeps {e e' : EngineCore} {w : Word} (he : e.accept w = some e') :
    (∃ seed, e.seq = .idle ∧ decodeHeader w = .init seed ∧
      e' = { e with initialised := true, hash := initHash seed }) ∨
    (e'.initialised = e.initialised ∧ e'.hash.seed = e.hash.seed) := by
  rcases EngineCore.accept_cases he with hinit | ⟨hdr, b, -, hu⟩ | ⟨n, -, -, -, rfl⟩ |
    ⟨hdr, need, got, -, -, rfl⟩ | ⟨-, -, -, hr⟩ | ⟨-, -, -, hr⟩ | ⟨-, -, hr⟩
  · exact .inl hinit
  · rcases EngineCore.update_cases hu with ⟨-, rfl⟩ | ⟨-, hr⟩
    · exact .inr ⟨rfl, updateHash_seed b e.hash⟩
    · obtain ⟨-, rfl⟩ := EngineCore.respond_cases hr
      exact .inr ⟨rfl, rfl⟩
  · exact .inr ⟨rfl, rfl⟩
  · exact .inr ⟨rfl, rfl⟩
  all_goals
    obtain ⟨-, rfl⟩ := EngineCore.respond_cases hr
    exact .inr ⟨rfl, rfl⟩

theorem engineStep_init_or_keeps {s t : State} (h : engineStep s = .next t) :
    (s.seq = .idle ∧ ∃ w rest seed, s.cmdIn = w :: rest ∧ decodeHeader w = .init seed ∧
      t.initialised = true ∧ t.hash = initHash seed) ∨
    (t.initialised = s.initialised ∧ t.hash.seed = s.hash.seed) := by
  rcases engineStep_cases h with rfl | ⟨w, rest, e, hc, ha, rfl⟩
  · exact .inr ⟨rfl, rfl⟩
  · rcases EngineCore.accept_init_or_keeps ha with ⟨seed, hidle, hd, rfl⟩ | hkeep
    · exact .inl ⟨hidle, w, rest, seed, hc, hd, rfl, rfl⟩
    · exact .inr hkeep

/-- Everything a step of the machine can do to the flag and the seed. -/
theorem step_init_or_rst_or_keeps {s t : State} (h : step s = .next t) :
    (s.seq = .idle ∧ ∃ w rest seed, s.cmdIn = w :: rest ∧ decodeHeader w = .init seed ∧
      t.initialised = true ∧ t.hash = initHash seed) ∨
    (∃ rest, s.host = .rst :: rest ∧ t = ({ s with host := rest } : State).hardwareReset) ∨
    (t.initialised = s.initialised ∧ t.hash.seed = s.hash.seed) := by
  rcases step_cases h with ⟨w, rest, -, -, rfl⟩ | ⟨rest, -, rfl⟩ | hrst | he | ⟨rest, -, he⟩
  · exact .inr (.inr ⟨rfl, rfl⟩)
  · exact .inr (.inr ⟨rfl, rfl⟩)
  · exact .inr (.inl hrst)
  · exact (engineStep_init_or_keeps he).imp_right .inr
  · exact (engineStep_init_or_keeps he).imp_right .inr

/-- Settles O51, by the case of the command and by `step_init_or_rst_or_keeps`. -/
theorem flagSetByInitClearedByReset : Obligations.FlagSetByInitClearedByReset := by
  unfold Obligations.FlagSetByInitClearedByReset
  refine ⟨fun i s t h => ?_, fun s t h ht hs => ?_, fun s t h ht hs => ?_⟩
  · rcases exec_ends_or_is_held h with ⟨seed, rfl, rfl⟩ | ⟨hdr, b, rfl, -, rfl⟩ |
      ⟨rfl, -, -, rfl⟩ | ⟨w, rfl | ⟨b, rfl⟩, -, -, rfl⟩ | ⟨rfl | ⟨-, hdr, b, rfl⟩, -, rfl⟩ <;> rfl
  · rcases step_init_or_rst_or_keeps h with ⟨-, _, _, _, -, -, hset, -⟩ | ⟨rest, hrst, -⟩ | ⟨hkeep, -⟩
    · exact absurd (hset.symm.trans ht) nofun
    · exact ⟨rest, hrst⟩
    · exact absurd (hs.symm.trans (hkeep.symm.trans ht)) nofun
  · rcases step_init_or_rst_or_keeps h with ⟨hidle, w, rest, seed, hc, hd, -, hh⟩ | ⟨rest, -, rfl⟩ |
      ⟨hkeep, -⟩
    · exact ⟨hidle, w, rest, seed, hc, hd, hh⟩
    · exact nomatch ht
    · exact absurd (ht.symm.trans (hkeep.trans hs)) nofun

/-- Settles O52, by the case of the command and by `step_init_or_rst_or_keeps`. -/
theorem onlyInitWritesTheSeed : Obligations.OnlyInitWritesTheSeed := by
  unfold Obligations.OnlyInitWritesTheSeed
  refine ⟨fun i s t h => ?_, fun s t h hne => ?_, fun s rest hrst => ⟨_, step_of_rst hrst, rfl⟩⟩
  · rcases exec_ends_or_is_held h with ⟨seed, rfl, rfl⟩ | ⟨hdr, b, rfl, -, rfl⟩ |
      ⟨rfl, -, -, rfl⟩ | ⟨w, rfl | ⟨b, rfl⟩, -, -, rfl⟩ | ⟨rfl | ⟨-, hdr, b, rfl⟩, -, rfl⟩ <;> simp
  · rcases step_init_or_rst_or_keeps h with ⟨hidle, w, rest, seed, hc, hd, -, hh⟩ | ⟨rest, hrst, -⟩ |
      ⟨-, hkeep⟩
    · exact .inl ⟨hidle, w, rest, hc, by rw [hd, hh, initHash_seed]⟩
    · exact .inr ⟨rest, hrst⟩
    · exact absurd hkeep hne

/-! ### The invariant -/

/-- What the invariant says of `S` (10_state.md R25 to R30). -/
structure EngineCore.Inv (e : EngineCore) : Prop where
  tracked : e.hash.Tracked e.initialised
  framed : e.seq.Framed
  respFits : e.respQ.length ≤ Config.respDepth

theorem State.Inv_iff (s : State) :
    s.Inv ↔ s.engine.Inv ∧ s.cmdIn.length ≤ Config.cmdDepth :=
  ⟨fun ⟨hsized, hcounted, hframed, hresp, hcmd⟩ => ⟨⟨⟨hsized, hcounted⟩, hframed, hresp⟩, hcmd⟩,
    fun ⟨⟨⟨hsized, hcounted⟩, hframed, hresp⟩, hcmd⟩ => ⟨hsized, hcounted, hframed, hresp, hcmd⟩⟩

/-- Only an UPDATE's header decodes to one, with its own length (30_encoding.md R73, R85). -/
theorem decodeHeader_eq_update {w : Word} {n : Len} (h : decodeHeader w = .update n) :
    opcodeOf w = 0b0010#4 ∧ lenOf w = n := by
  unfold decodeHeader at h
  split_ifs at h with _ _ ho
  exact ⟨ho, Header.update.inj h⟩

/-- A header opens a payload with all of its beats to come. -/
theorem Sequencer.framed_of_header {w : Word} {n : Len} (hd : decodeHeader w = .update n)
    (hn : n.toNat ≠ 0) : (Sequencer.collect w (beatCount n.toNat) []).Framed := by
  obtain ⟨ho, rfl⟩ := decodeHeader_eq_update hd
  refine ⟨ho, ?_, le_rfl, by simp⟩
  unfold beatCount
  omega

/-- A beat that is not the last one brings its eight bytes. -/
theorem Sequencer.framed_of_beat {hdr : Word} {need : Nat} {got : List Byte} {w : Word}
    (hf : (Sequencer.collect hdr need got).Framed) (hn : need ≠ 1) :
    (Sequencer.collect hdr (need - 1) (got ++ beatBytes w)).Framed := by
  obtain ⟨ho, hpos, hle, hgot⟩ := hf
  refine ⟨ho, by omega, by omega, ?_⟩
  have hbeat : (beatBytes w).length = 8 := rfl
  rw [List.length_append, hbeat, hgot]
  omega

theorem EngineCore.respond_keeps_inv {e e' : EngineCore} {h : HashState} {c : RespCode} {v : Word}
    (he : e.respond h c v = some e') (hh : h.Tracked e.initialised) : e'.Inv := by
  obtain ⟨hroom, rfl⟩ := EngineCore.respond_cases he
  exact ⟨hh, trivial, by rwa [List.length_append]⟩

theorem EngineCore.accept_keeps_inv {e e' : EngineCore} {w : Word} (he : e.accept w = some e')
    (hi : e.Inv) : e'.Inv := by
  obtain ⟨htracked, hframed, hfits⟩ := hi
  rcases EngineCore.accept_cases he with ⟨seed, hidle, -, rfl⟩ | ⟨hdr, b, -, hu⟩ |
    ⟨n, -, hd, hn, rfl⟩ | ⟨hdr, need, got, hseq, hn, rfl⟩ | ⟨-, -, -, hr⟩ | ⟨-, -, -, hr⟩ | ⟨-, -, hr⟩
  · exact ⟨initHash_tracked true seed, hframed, hfits⟩
  · rcases EngineCore.update_cases hu with ⟨-, rfl⟩ | ⟨-, hr⟩
    · exact ⟨updateHash_tracked htracked b, trivial, hfits⟩
    · exact EngineCore.respond_keeps_inv hr htracked
  · exact ⟨htracked, Sequencer.framed_of_header hd hn, hfits⟩
  · exact ⟨htracked, Sequencer.framed_of_beat (hseq ▸ hframed) hn, hfits⟩
  · exact EngineCore.respond_keeps_inv hr (initHash_tracked _ _)
  · exact EngineCore.respond_keeps_inv hr htracked
  · exact EngineCore.respond_keeps_inv hr htracked

theorem engineStep_keeps_inv {s t : State} (h : engineStep s = .next t) (hs : s.Inv) : t.Inv := by
  rcases engineStep_cases h with rfl | ⟨w, rest, e, hc, ha, rfl⟩
  · exact hs
  · obtain ⟨hengine, hcmd⟩ := s.Inv_iff.mp hs
    rw [hc] at hcmd
    exact (State.Inv_iff _).mpr
      ⟨EngineCore.accept_keeps_inv ha hengine, (Nat.le_succ _).trans hcmd⟩

/-- RST keeps or drops the words on CMD_IN, so there are no more of them (assumption log 4). -/
theorem hardwareReset_keeps_inv {s : State} (hs : s.Inv) : s.hardwareReset.Inv := by
  refine (State.Inv_iff _).mpr ⟨⟨HashState.blank_tracked, trivial, Nat.zero_le _⟩, ?_⟩
  rw [State.hardwareReset_cmdIn]
  split
  · exact Nat.zero_le _
  · exact hs.cmdFits

/-- What the host plans and has taken is not the invariant's concern. -/
theorem State.Inv.of_host {s : State} (hs : s.Inv) (rest : List HostAct) :
    ({ s with host := rest } : State).Inv := (State.Inv_iff _).mpr (s.Inv_iff.mp hs)

/-- Settles O50, by the moves of host and engine (`engineStep_keeps_inv`). -/
theorem stepKeepsTheInvariant : Obligations.StepKeepsTheInvariant := by
  unfold Obligations.StepKeepsTheInvariant
  intro s t hs h
  rcases step_cases h with ⟨w, rest, -, hroom, rfl⟩ | ⟨rest, -, rfl⟩ | ⟨rest, -, rfl⟩ | he |
    ⟨rest, -, he⟩
  · exact { hs.of_host rest with cmdFits := by rwa [List.length_append] }
  · have htail : s.respQ.tail.length ≤ s.respQ.length := by simp
    exact { hs.of_host rest with respFits := htail.trans hs.respFits }
  · exact hardwareReset_keeps_inv (hs.of_host rest)
  · exact engineStep_keeps_inv he hs
  · exact engineStep_keeps_inv he (hs.of_host rest)

end Sys2Proof.Machine

/-!
PROOFS. Before an INIT no rule reads the hashing fields (10_state.md R39).
-/

namespace Sys2Proof.Machine

/-! ### One word on `S` with other hashing fields -/

/-- `S` with other hashing fields. -/
def EngineCore.setHash (h : HashState) (e : EngineCore) : EngineCore := { e with hash := h }

@[simp] theorem State.engine_setHash (h : HashState) (s : State) :
    (s.setHash h).engine = s.engine.setHash h := (rfl)

theorem EngineCore.respond_setHash (e : EngineCore) (h : HashState) (c : RespCode) (v : Word) :
    (e.setHash h).respond h c v = (e.respond e.hash c v).map (setHash h) := by
  have hq : (e.setHash h).respQ = e.respQ := rfl
  rw [EngineCore.respond, EngineCore.respond, hq]
  split <;> rfl

theorem EngineCore.update_setHash_of_uninitialised {e : EngineCore} (hi : e.initialised = false)
    (h : HashState) (hdr : Word) (b : List Byte) :
    (e.setHash h).update hdr b = (e.update hdr b).map (setHash h) := by
  have hi' : (e.setHash h).initialised = false := hi
  rw [EngineCore.update, EngineCore.update, if_neg (by simp [hi']), if_neg (by simp [hi])]
  exact e.respond_setHash h _ _

/-- An INIT header overwrites the hashing fields and does not read them. -/
theorem EngineCore.accept_of_init {e : EngineCore} {w : Word} {seed : Seed}
    (hidle : e.seq = .idle) (hd : decodeHeader w = .init seed) :
    e.accept w = some { e with initialised := true, hash := initHash seed } := by
  simp only [EngineCore.accept, hidle, hd]

/-- Uninitialised, a word that is no INIT header carries the hashing fields along unread. -/
theorem EngineCore.accept_setHash_of_uninitialised {e : EngineCore} {w : Word}
    (hi : e.initialised = false) (hw : ∀ seed, e.seq = .idle → decodeHeader w ≠ .init seed)
    (h : HashState) : (e.setHash h).accept w = (e.accept w).map (setHash h) := by
  have hi' : (e.setHash h).initialised = false := hi
  have hseq : (e.setHash h).seq = e.seq := rfl
  unfold EngineCore.accept
  rw [hseq]
  cases hs : e.seq with
  | idle =>
    cases hd : decodeHeader w with
    | init seed => exact absurd hd (hw seed hs)
    | update n =>
      by_cases hn : n.toNat = 0
      · simp only [if_pos hn]
        exact EngineCore.update_setHash_of_uninitialised hi h w []
      · simp only [if_neg hn]
        rfl
    | digest =>
      simp only [hi, hi', Bool.false_eq_true, if_false]
      exact e.respond_setHash h _ _
    | reservedOpcode => exact e.respond_setHash h _ _
    | reservedBits => exact e.respond_setHash h _ _
  | collect hdr need got =>
    by_cases hn : need = 1
    · simp only [if_pos hn]
      exact EngineCore.update_setHash_of_uninitialised hi h hdr _
    · simp only [if_neg hn]
      rfl

/-! ### Steps and runs of two machines that differ only there -/

/-- The two states are the same, or no INIT has run and they differ in the hashing fields alone. -/
def State.AgreeUntilInit (s s' : State) : Prop :=
  s' = s ∨ s.initialised = false ∧ ∃ h, s' = s.setHash h

theorem engineStep_agreeUntilInit {s : State} (hi : s.initialised = false) (h : HashState) :
    ∃ t t', engineStep s = .next t ∧ engineStep (s.setHash h) = .next t' ∧
      t.AgreeUntilInit t' := by
  rcases hc : s.cmdIn with _ | ⟨w, rest⟩
  · exact ⟨_, _, engineStep_of_empty hc, engineStep_of_empty hc, .inr ⟨hi, h, rfl⟩⟩
  · refine ⟨_, _, engineStep_of_word hc, engineStep_of_word hc, ?_⟩
    rw [State.engine_setHash]
    by_cases hinit : ∃ seed, s.engine.seq = .idle ∧ decodeHeader w = .init seed
    · obtain ⟨seed, hidle, hd⟩ := hinit
      rw [EngineCore.accept_of_init hidle hd,
        EngineCore.accept_of_init (e := s.engine.setHash h) hidle hd]
      exact .inl rfl
    · rw [EngineCore.accept_setHash_of_uninitialised hi
        (fun seed hidle hd => hinit ⟨seed, hidle, hd⟩)]
      cases ha : s.engine.accept w with
      | none => exact .inr ⟨hi, h, rfl⟩
      | some e =>
        refine .inr ⟨?_, h, rfl⟩
        rcases EngineCore.accept_init_or_keeps ha with ⟨seed, hidle, hd, -⟩ | ⟨hkeep, -⟩
        · exact absurd ⟨seed, hidle, hd⟩ hinit
        · exact hkeep.trans hi

theorem step_agreeUntilInit {s s' : State} (h : s.AgreeUntilInit s') :
    ∃ t t', step s = .next t ∧ step s' = .next t' ∧ t.AgreeUntilInit t' := by
  rcases h with rfl | ⟨hi, h, rfl⟩
  · obtain ⟨t, ht⟩ := step_answers_next s'
    exact ⟨t, t, ht, ht, .inl rfl⟩
  · rcases hh : s.host with _ | ⟨a, rest⟩
    · rw [step_of_quiet hh, step_of_quiet (s := s.setHash h) hh]
      exact engineStep_agreeUntilInit hi h
    · cases a with
      | send w =>
        by_cases hc : s.cmdIn.length < Config.cmdDepth
        · exact ⟨_, _, step_of_send_room hh hc, step_of_send_room (s := s.setHash h) hh hc,
            .inr ⟨hi, h, rfl⟩⟩
        · have hfull := Nat.not_lt.mp hc
          rw [step_of_send_full hh hfull, step_of_send_full (s := s.setHash h) hh hfull]
          exact engineStep_agreeUntilInit hi h
      | take =>
        exact ⟨_, _, step_of_take hh, step_of_take (s := s.setHash h) hh, .inr ⟨hi, h, rfl⟩⟩
      | rst => exact ⟨_, _, step_of_rst hh, step_of_rst (s := s.setHash h) hh, .inl rfl⟩
      | pass =>
        rw [step_of_pass hh, step_of_pass (s := s.setHash h) hh]
        exact engineStep_agreeUntilInit (s := { s with host := rest }) hi h

theorem runFor_agreeUntilInit (k : Nat) {s s' : State} (h : s.AgreeUntilInit s') :
    ∃ t t', runFor k s = .next t ∧ runFor k s' = .next t' ∧ t.AgreeUntilInit t' := by
  induction k generalizing s s' with
  | zero => exact ⟨s, s', rfl, rfl, h⟩
  | succ k ih =>
    obtain ⟨u, u', hu, hu', hagree⟩ := step_agreeUntilInit h
    rw [runFor_succ hu, runFor_succ hu']
    exact ih hagree

/-- Settles O47: the two machines agree until an INIT at every step (`step_agreeUntilInit`). -/
theorem uninitialisedHashingFieldsAreNeverRead :
    Obligations.UninitialisedHashingFieldsAreNeverRead := by
  unfold Obligations.UninitialisedHashingFieldsAreNeverRead
  intro s h k hi
  obtain ⟨t, t', ht, ht', hagree⟩ :=
    runFor_agreeUntilInit k (s := s) (s' := s.setHash h) (.inr ⟨hi, h, rfl⟩)
  refine ⟨t, t', ht, ht', ?_⟩
  rcases hagree with rfl | ⟨hit, g, rfl⟩
  · exact ⟨rfl, fun _ => rfl⟩
  · exact ⟨rfl, fun htrue => absurd (hit.symm.trans htrue) nofun⟩

end Sys2Proof.Machine

/-!
PROOFS. A command's last word runs it (30_encoding.md R78, R85).
-/

namespace Sys2Proof.Machine

/-! ### The bytes of a chunk's beats -/

theorem toNat_beatByte (w : Word) (i : Nat) :
    (beatByte w i).toNat = w.toNat / 2 ^ (8 * i) % 2 ^ 8 := by
  rw [beatByte, BitVec.extractLsb'_toNat, Nat.shiftRight_eq_div_pow]

/-- Byte `i` of a read is the byte at `i`: those below it make less than `2^(8i)`, and those above it
are multiples of `2^(8(i+1))`. -/
theorem beatByte_readLE (b : List Byte) (off : Nat) {n i : Nat} (hn : n ≤ 8) (hi : i < n) :
    beatByte (readLE b off n) i = b.getD (off + i) 0 := by
  apply BitVec.eq_of_toNat_eq
  induction n with
  | zero => omega
  | succ n ih =>
    rw [toNat_beatByte, toNat_readLE_succ b off hn]
    rcases Nat.lt_succ_iff_lt_or_eq.mp hi with hlt | rfl
    · have hpow : 2 ^ (8 * n) = 2 ^ (8 * i) * (2 ^ 8 * 2 ^ (8 * (n - i - 1))) := by
        rw [← Nat.pow_add, ← Nat.pow_add]
        congr 1
        omega
      rw [hpow, Nat.mul_left_comm, Nat.add_mul_div_left _ _ (Nat.two_pow_pos _),
        Nat.mul_left_comm, Nat.add_mul_mod_self_left, ← toNat_beatByte]
      exact ih (Nat.le_of_succ_le hn) hlt
    · rw [Nat.add_mul_div_right _ _ (Nat.two_pow_pos _),
        Nat.div_eq_of_lt (toNat_readLE_lt b off i), Nat.zero_add]
      exact Nat.mod_eq_of_lt (BitVec.isLt _)

theorem beatBytes_readLE {b : List Byte} (hb : 8 ≤ b.length) :
    beatBytes (readLE b 0 8) = b.take 8 := by
  have hmap : beatBytes (readLE b 0 8) = (List.range 8).map (beatByte (readLE b 0 8)) := rfl
  rw [hmap]
  refine List.ext_getElem (by simp [hb]) fun i hi hi' => ?_
  rw [List.length_map, List.length_range] at hi
  rw [List.getElem_map, List.getElem_range, beatByte_readLE b 0 le_rfl hi, Nat.zero_add,
    List.getElem_take, List.getD_eq_getElem]

/-- A beat's bytes are the chunk's next eight, padded at its end (30_encoding.md R78, R87). -/
theorem beatBytes_packBeat_zero (b : List Byte) :
    beatBytes (packBeat b 0) = (b.take 8 ++ List.replicate 8 0).take 8 :=
  beatBytes_readLE (by simp)

/-- The beats of a chunk: the one of its first eight bytes, then those of the rest. -/
theorem packBeats_of_ne_nil {b : List Byte} (hb : b ≠ []) :
    packBeats b = packBeat b 0 :: packBeats (b.drop 8) := by
  have hpos : 0 < b.length := List.length_pos_of_ne_nil hb
  have hcount : beatCount b.length = beatCount (b.drop 8).length + 1 := by
    rw [List.length_drop, beatCount, beatCount]
    omega
  have hbeat : ∀ k, packBeat b (k + 1) = packBeat (b.drop 8) k := fun k => by
    rw [packBeat, packBeat, List.drop_drop, Nat.mul_succ, Nat.add_comm 8]
  rw [packBeats, packBeats, hcount, List.range_succ_eq_map, List.map_cons, List.map_map]
  exact congrArg _ (List.map_congr_left fun k _ => hbeat k)

/-- The bytes of a chunk's beats are the chunk and, behind it, the padding. -/
theorem take_flatMap_packBeats (b : List Byte) :
    ((packBeats b).flatMap beatBytes).take b.length = b := by
  induction hn : b.length using Nat.strong_induction_on generalizing b with
  | h n ih =>
    subst hn
    by_cases hb : b = []
    · rw [hb]
      rfl
    · have hpos : 0 < b.length := List.length_pos_of_ne_nil hb
      rw [packBeats_of_ne_nil hb, List.flatMap_cons, beatBytes_packBeat_zero]
      by_cases h8 : b.length ≤ 8
      · rw [List.take_append_of_le_length (by simp [h8]), List.take_take, Nat.min_eq_left h8,
          List.take_of_length_le h8, List.take_left]
      · have hfull : (b.take 8).length = 8 := List.length_take_of_le (Nat.le_of_not_le h8)
        have hrest := ih (b.drop 8).length (by rw [List.length_drop]; omega) (b.drop 8) rfl
        rw [List.take_left' hfull, List.take_append, hfull,
          List.take_of_length_le (hfull.trans_le (Nat.le_of_not_le h8)), ← List.length_drop, hrest,
          List.take_append_drop]

/-! ### The word that completes a command -/

theorem engineStep_of_idle {s : State} {w : Word} {rest : List Word} (hseq : s.seq = .idle)
    (hc : s.cmdIn = w :: rest) : engineStep s = acceptHeader w s := by
  simp only [engineStep, hc, hseq]

theorem engineStep_of_collect {s : State} {w hdr : Word} {need : Nat} {got : List Byte}
    {rest : List Word} (hseq : s.seq = .collect hdr need got) (hc : s.cmdIn = w :: rest) :
    engineStep s = acceptBeat hdr need got w s := by
  simp only [engineStep, hc, hseq]

theorem wellFormed_update {hdr : Word} {b : List Byte}
    (h : (Instr.update hdr b).wellFormed = true) :
    decodeHeader hdr = .update (lenOf hdr) ∧ b.length = (lenOf hdr).toNat := by
  simp only [Instr.wellFormed, Bool.and_eq_true, decide_eq_true_eq] at h
  exact ⟨decodeHeader_of_update h.1, h.2⟩

/-- A command of one word is run by its header. -/
theorem acceptHeader_of_encode {i : Instr} {w : Word} (hw : i.wellFormed = true)
    (he : encode i = [w]) (s : State) : acceptHeader w s = exec i s := by
  cases i with
  | init seed =>
    obtain rfl : initHeader seed = w := List.singleton_injective he
    simp only [acceptHeader, decodeHeader_initHeader]
  | update hdr b =>
    obtain ⟨rfl, hbeats⟩ : hdr = w ∧ packBeats b = [] := List.cons.inj he
    obtain ⟨hd, hlen⟩ := wellFormed_update hw
    have hb : b = [] := by
      by_contra hne
      exact nomatch (packBeats_of_ne_nil hne).symm.trans hbeats
    subst hb
    have hzero : (lenOf hdr).toNat = 0 := hlen.symm
    simp only [acceptHeader, hd, hzero, if_true]
  | digest =>
    obtain rfl : digestHeader = w := List.singleton_injective he
    simp only [acceptHeader, decodeHeader_digestHeader]

/-- A command of more words is an UPDATE, and its last beat runs it. -/
theorem acceptBeat_of_encode {i : Instr} {hdr w : Word} {ws : List Word} (hw : i.wellFormed = true)
    (he : encode i = hdr :: ws ++ [w]) (s : State) :
    acceptBeat hdr 1 (ws.flatMap beatBytes) w s = exec i s := by
  cases i with
  | init seed => simp [encode] at he
  | update hdr' b =>
    obtain ⟨rfl, hbeats⟩ : hdr' = hdr ∧ packBeats b = ws ++ [w] := List.cons.inj he
    obtain ⟨-, hlen⟩ := wellFormed_update hw
    have hbytes : ((ws.flatMap beatBytes ++ beatBytes w).take (lenOf hdr').toNat) = b := by
      rw [← hlen, ← List.flatMap_singleton beatBytes w, ← List.flatMap_append, ← hbeats,
        take_flatMap_packBeats]
    rw [acceptBeat, if_pos rfl, hbytes]
  | digest => simp [encode] at he

/-- Settles O8, by `acceptHeader_of_encode` at Idle and `acceptBeat_of_encode` in Collect. -/
theorem stepRunsTheDecodedCommand : Obligations.StepRunsTheDecodedCommand := by
  unfold Obligations.StepRunsTheDecodedCommand
  intro i s w rest hw hhost hc
  rw [step_of_quiet hhost]
  refine ⟨fun hseq he => ?_, fun hdr ws he hseq => ?_⟩
  · rw [engineStep_of_idle hseq hc, acceptHeader_of_encode hw he]
  · rw [engineStep_of_collect hseq hc, acceptBeat_of_encode hw he]

end Sys2Proof.Machine

/-!
PROOFS. The words of a command, and of a program, run it as one indivisible effect a command
(20_memory.md R57, R61).
-/

namespace Sys2Proof.Machine

/-! ### A whole command on `S` -/

/-- What the command `i` does to `S`; none where it is held. -/
def EngineCore.runCommand (e : EngineCore) : Instr → Option EngineCore
  | .init seed => some { e with initialised := true, hash := initHash seed, seq := .idle }
  | .update hdr b => e.update hdr b
  | .digest =>
    if e.initialised then e.respond (initHash e.hash.seed) .digestOk (digestValue e.hash)
    else e.respond e.hash .errNotInitialised digestHeader

/-- A command's meaning is `EngineCore.runCommand`, with its last word consumed; or it is held. -/
theorem exec_withPorts (e : EngineCore) (i : Instr) (cs : List Word) (l : List HostAct)
    (k : List Resp) :
    exec i (e.withPorts cs l k) =
      .next (match e.runCommand i with
        | none => e.withPorts cs l k
        | some e' => e'.withPorts cs.tail l k) := by
  cases i with
  | init seed =>
    rw [exec_init]
    simp [EngineCore.runCommand, State.setHash, State.setInitialised, State.endCommand,
      EngineCore.withPorts]
  | update hdr b => exact exec_update_withPorts e hdr b cs l k
  | digest =>
    cases hi : e.initialised with
    | true =>
      rw [exec_digest_ready hi, EngineCore.runCommand, if_pos hi]
      exact respond_withPorts e (e.setHash (initHash e.hash.seed)) _ _ cs l k rfl rfl
    | false =>
      rw [exec_digest_notReady hi, EngineCore.runCommand, if_neg (by simp [hi])]
      exact respond_withPorts e e _ _ cs l k rfl rfl

theorem EngineCore.respond_of_room {e : EngineCore} (h : e.respQ.length < Config.respDepth)
    (hs : HashState) (c : RespCode) (v : Word) :
    e.respond hs c v =
      some { e with hash := hs, seq := .idle, respQ := e.respQ ++ [{ code := c, value := v }] } :=
  if_pos h

theorem EngineCore.update_of_ready {e : EngineCore} (hi : e.initialised = true) (hdr : Word)
    (b : List Byte) :
    e.update hdr b = some { e with hash := updateHash b e.hash, seq := .idle } := if_pos hi

theorem EngineCore.update_of_uninitialised {e : EngineCore} (hi : e.initialised = false)
    (hdr : Word) (b : List Byte) :
    e.update hdr b = e.respond e.hash .errNotInitialised hdr := if_neg (by simp [hi])

/-- With room for a record a command is not held. -/
theorem EngineCore.runCommand_of_room {e : EngineCore} (h : e.respQ.length < Config.respDepth)
    (i : Instr) : ∃ e', e.runCommand i = some e' := by
  cases i with
  | init seed => exact ⟨_, rfl⟩
  | update hdr b =>
    cases hi : e.initialised with
    | true => exact ⟨_, EngineCore.update_of_ready hi hdr b⟩
    | false =>
      exact ⟨_, (EngineCore.update_of_uninitialised hi hdr b).trans (respond_of_room h _ _ _)⟩
  | digest =>
    rw [EngineCore.runCommand]
    split <;> exact ⟨_, EngineCore.respond_of_room h _ _ _⟩

/-- A command that is not held ends at Idle. -/
theorem EngineCore.runCommand_seq {e e' : EngineCore} {i : Instr} (h : e.runCommand i = some e') :
    e'.seq = .idle := by
  cases i with
  | init seed => rw [← Option.some.inj h]
  | update hdr b =>
    rcases EngineCore.update_cases h with ⟨-, rfl⟩ | ⟨-, hr⟩
    · rfl
    · rw [(EngineCore.respond_cases hr).2]
  | digest =>
    rw [EngineCore.runCommand] at h
    split at h <;> rw [(EngineCore.respond_cases h).2]

/-! ### A command word by word -/

theorem EngineCore.acceptAll_singleton (e : EngineCore) (w : Word) :
    e.acceptAll [w] = e.accept w := Option.bind_fun_some (e.accept w)

/-- The beats of a payload, the last of which completes the UPDATE. -/
theorem EngineCore.acceptAll_beats {e : EngineCore} {hdr w : Word} {ws : List Word}
    {got : List Byte} (hseq : e.seq = .collect hdr (ws.length + 1) got) :
    e.acceptAll (w :: ws) =
      e.update hdr ((got ++ (w :: ws).flatMap beatBytes).take (lenOf hdr).toNat) := by
  induction ws generalizing e w got with
  | nil =>
    rw [acceptAll_singleton, List.flatMap_singleton]
    simp only [accept, hseq, List.length_nil, Nat.zero_add, if_true]
  | cons w' ws ih =>
    have hmore : e.accept w =
        some { e with seq := .collect hdr (ws.length + 1) (got ++ beatBytes w) } := by
      simp [accept, hseq]
    rw [acceptAll_cons, hmore, Option.bind_some, ih rfl, List.append_assoc,
      ← List.flatMap_cons (x := w)]
    rfl

/-- The words of a command do to `S`, one by one, what the command does (20_memory.md R57). -/
theorem EngineCore.acceptAll_encode {e : EngineCore} {i : Instr} (hw : i.wellFormed = true)
    (hseq : e.seq = .idle) : e.acceptAll (encode i) = e.runCommand i := by
  cases i with
  | init seed =>
    rw [encode, acceptAll_singleton, accept_of_init hseq (decodeHeader_initHeader seed),
      runCommand, ← hseq]
  | update hdr b =>
    obtain ⟨hd, hlen⟩ := wellFormed_update hw
    rw [encode, runCommand]
    by_cases hb : b = []
    · have hzero : (lenOf hdr).toNat = 0 := by rw [← hlen, hb, List.length_nil]
      have hnone : packBeats b = [] := by rw [hb]; rfl
      rw [hnone, acceptAll_singleton, hb]
      simp only [accept, hseq, hd, hzero, if_true]
    · have hpos : (lenOf hdr).toNat ≠ 0 := by
        rw [← hlen]
        exact fun h0 => hb (List.length_eq_zero_iff.mp h0)
      have hopen : e.accept hdr =
          some { e with seq := .collect hdr (packBeats b).length [] } := by
        simp only [accept, hseq, hd, if_neg hpos, packBeats_length, hlen]
      have hbytes := take_flatMap_packBeats b
      rw [acceptAll_cons, hopen, Option.bind_some]
      rw [packBeats_of_ne_nil hb] at hbytes ⊢
      rw [acceptAll_beats rfl, List.nil_append, ← hlen, hbytes]
      rfl
  | digest =>
    rw [encode, acceptAll_singleton, runCommand]
    simp only [accept, hseq, decodeHeader_digestHeader]

/-- With the host at rest, words that are not held are consumed one a step. -/
theorem runFor_of_acceptAll {ws : List Word} {e e' : EngineCore} (hall : e.acceptAll ws = some e')
    (rest : List Word) (k : List Resp) :
    runFor ws.length (e.withPorts (ws ++ rest) [] k) = .next (e'.withPorts rest [] k) := by
  induction ws generalizing e with
  | nil => rw [← Option.some.inj hall]; rfl
  | cons w ws ih =>
    rw [EngineCore.acceptAll_cons, Option.bind_eq_some_iff] at hall
    obtain ⟨e₁, ha, hall⟩ := hall
    have hstep : step (e.withPorts (w :: ws ++ rest) [] k) =
        .next (e₁.withPorts (ws ++ rest) [] k) := (step_of_quiet rfl).trans (engineStep_of_accept ha _ _ _)
    rw [List.length_cons, runFor_succ hstep, ih hall]

/-- Settles O12: the words and the meaning both do to `S` what `EngineCore.runCommand` says
(`EngineCore.acceptAll_encode`, `exec_withPorts`). -/
theorem commandWordsRunTheCommand : Obligations.CommandWordsRunTheCommand := by
  unfold Obligations.CommandWordsRunTheCommand
  intro i s rest hw hhost hseq hc hroom
  obtain ⟨e, he⟩ := EngineCore.runCommand_of_room (e := s.engine) hroom i
  have hall : s.engine.acceptAll (encode i) = some e :=
    (EngineCore.acceptAll_encode hw hseq).trans he
  have hs : s = s.engine.withPorts (encode i ++ rest) [] s.taken := by
    rw [← hc, ← hhost, State.engine_withPorts]
  have hs' : { s with cmdIn := 0#64 :: rest } = s.engine.withPorts (0#64 :: rest) [] s.taken := by
    rw [← hhost]
    rfl
  refine ⟨e.withPorts rest [] s.taken, ?_, ?_, rfl, EngineCore.runCommand_seq he⟩
  · rw [hs]
    exact runFor_of_acceptAll hall rest s.taken
  · rw [hs', exec_withPorts, he]
    rfl

end Sys2Proof.Machine

/-!
PROOFS. UPDATEs concatenate (42_update.md R141, 30_encoding.md R88), and a host's session from reset
(70_reset_and_hazards.md R231, R238).
-/

namespace Sys2Proof.Machine

/-! ### Mixing whole blocks and keeping the rest -/

/-- Mix the whole blocks of the data `r` in order and keep the rest: UPDATE's steps 4 to 6 where `r` is
the buffer and the chunk behind it. -/
def absorb (r : List Byte) (h : HashState) : HashState :=
  if 32 ≤ r.length then absorb (r.drop 32) (blockMix (r.take 32) h) else tailStore (h, r)
termination_by r.length
decreasing_by rw [List.length_drop]; omega

theorem absorb_of_block {r : List Byte} (hr : 32 ≤ r.length) (h : HashState) :
    absorb r h = absorb (r.drop 32) (blockMix (r.take 32) h) := by
  rw [absorb, if_pos hr]

theorem absorb_of_short {r : List Byte} (hr : r.length < 32) (h : HashState) :
    absorb r h = tailStore (h, r) := by
  rw [absorb, if_neg (Nat.not_le.mpr hr)]

theorem tailStore_directLoop {k : Nat} {r : List Byte} (hk : r.length ≤ k) (h : HashState) :
    tailStore (directLoop k h r) = absorb r h := by
  induction k generalizing h r with
  | zero => exact (absorb_of_short (by omega) h).symm
  | succ k ih =>
    by_cases hr : 32 ≤ r.length
    · rw [directLoop_turn hr, absorb_of_block hr]
      exact ih (by rw [List.length_drop]; omega) _
    · rw [directLoop_stop (Nat.not_le.mp hr), absorb_of_short (Nat.not_le.mp hr)]

theorem tailStore_directPath (p : HashState × List Byte) :
    tailStore (directPath p) = absorb p.2 p.1 := tailStore_directLoop le_rfl p.1

theorem blockMix_tailStore (blk q : List Byte) (h : HashState) :
    blockMix blk (tailStore (h, q)) = tailStore (blockMix blk h, q) := (rfl)

theorem blockMix_countBytes (blk : List Byte) (n : Nat) (h : HashState) :
    blockMix blk (countBytes n h) = countBytes n (blockMix blk h) := (rfl)

/-- What the buffer held before is not read: it is part of the data. -/
theorem absorb_tailStore (r q : List Byte) (h : HashState) :
    absorb r (tailStore (h, q)) = absorb r h := by
  induction r, h using absorb.induct with
  | case1 r h hr ih => rw [absorb_of_block hr, blockMix_tailStore, ih, ← absorb_of_block hr]
  | case2 r h hr =>
    rw [absorb_of_short (Nat.not_le.mp hr), absorb_of_short (Nat.not_le.mp hr)]
    rfl

theorem absorb_countBytes (r : List Byte) (n : Nat) (h : HashState) :
    absorb r (countBytes n h) = countBytes n (absorb r h) := by
  induction r, h using absorb.induct with
  | case1 r h hr ih => rw [absorb_of_block hr, blockMix_countBytes, ih, ← absorb_of_block hr]
  | case2 r h hr =>
    rw [absorb_of_short (Nat.not_le.mp hr), absorb_of_short (Nat.not_le.mp hr)]
    rfl

/-- Data that comes in two parts is mixed as if it came at once. -/
theorem absorb_append (r c : List Byte) (h : HashState) :
    absorb ((absorb r h).buf ++ c) (absorb r h) = absorb (r ++ c) h := by
  induction r, h using absorb.induct with
  | case1 r h hr ih =>
    have hrc : 32 ≤ (r ++ c).length := by
      rw [List.length_append]
      exact Nat.le_add_right_of_le hr
    rw [absorb_of_block hr, ih, absorb_of_block hrc, List.take_append_of_le_length hr,
      List.drop_append_of_le_length hr]
  | case2 r h hr =>
    rw [absorb_of_short (Nat.not_le.mp hr), absorb_tailStore]
    rfl

/-! ### UPDATEs concatenate -/

theorem shortPath_eq_tailStore {h : HashState} (hs : h.Sized) (b : List Byte) :
    shortPath b h = tailStore (h, h.buf ++ b) := by
  have hb : h.buf.length = h.pendingCount.toNat := hs
  simp [shortPath, tailStore, hb]

theorem shortPath_countBytes_nil (h : HashState) : shortPath [] (countBytes 0 h) = h := by
  simp [shortPath, countBytes, zextLen]

/-- Completing the pending block and mixing on is mixing the buffer and the chunk behind it. -/
theorem absorb_fillPath {b : List Byte} {h : HashState} (hs : h.Sized)
    (hl : 32 ≤ h.pendingCount.toNat + b.length) :
    absorb (fillPath b h).2 (fillPath b h).1 = absorb (h.buf ++ b) h := by
  have hb : h.buf.length = h.pendingCount.toNat := hs
  have hlt : h.pendingCount.toNat < 32 := h.pendingCount.isLt
  by_cases hp : 0 < h.pendingCount.toNat
  · have hdata : 32 ≤ (h.buf ++ b).length := by rwa [List.length_append, hb]
    rw [fillPath_of_pending hp, absorb_of_block hdata, List.take_append, List.drop_append, hb,
      List.take_of_length_le (l := h.buf) (by omega), List.drop_of_length_le (l := h.buf) (by omega),
      List.nil_append]
    exact absorb_tailStore _ [] _
  · have h0 : h.pendingCount.toNat = 0 := by omega
    rw [fillPath_of_empty h0, List.length_eq_zero_iff.mp (hb.trans h0), List.nil_append]

/-- UPDATE mixes the buffer and the chunk behind it (42_update.md R140). -/
theorem updateHash_eq_absorb {h : HashState} (hs : h.Sized) (b : List Byte) :
    updateHash b h = absorb (h.buf ++ b) (countBytes b.length h) := by
  have hsc : (countBytes b.length h).Sized := hs
  have hb : h.buf.length = h.pendingCount.toNat := hs
  by_cases hl : h.pendingCount.toNat + b.length < 32
  · have hdata : (h.buf ++ b).length < 32 := by rwa [List.length_append, hb]
    rw [absorb_of_short hdata, ← countBytes_buf h b.length, ← shortPath_eq_tailStore hsc]
    by_cases hnil : b = []
    · rw [hnil, updateHash_nil]
      exact (shortPath_countBytes_nil h).symm
    · exact updateHash_short hnil hl
  · have hnil : b ≠ [] := by
      rintro rfl
      exact hl h.pendingCount.isLt
    rw [updateHash_long hnil (Nat.not_lt.mp hl), tailStore_directPath,
      absorb_fillPath hsc (Nat.not_lt.mp hl), countBytes_buf]

theorem countBytes_countBytes (m n : Nat) (h : HashState) :
    countBytes n (countBytes m h) = countBytes (m + n) h := by
  simp [countBytes, zextLen, BitVec.ofNat_add, BitVec.add_assoc]

theorem updateHash_append {h : HashState} (hs : h.Sized) (a c : List Byte) :
    updateHash c (updateHash a h) = updateHash (a ++ c) h := by
  rw [updateHash_eq_absorb (updateHash_sized hs a), updateHash_eq_absorb hs,
    updateHash_eq_absorb hs, absorb_countBytes, absorb_append, ← absorb_countBytes,
    countBytes_countBytes, List.append_assoc, List.length_append]

/-- Any number of chunks, empty ones anywhere, leave what one UPDATE of all the bytes leaves. -/
theorem foldl_updateHash {h : HashState} (hs : h.Sized) (chunks : List (List Byte)) :
    chunks.foldl (fun h c => updateHash c h) h = updateHash chunks.flatten h := by
  induction chunks generalizing h with
  | nil => exact (updateHash_nil h).symm
  | cons c chunks ih =>
    rw [List.foldl_cons, ih (updateHash_sized hs c), updateHash_append hs, List.flatten_cons]

/-! ### The pieces of a long UPDATE -/

theorem splitLoop_flatten (m k : Nat) (b : List Byte) : (splitLoop m k b).flatten = b := by
  induction k generalizing b with
  | zero => exact List.append_nil b
  | succ k ih =>
    rw [splitLoop]
    split
    · exact List.append_nil b
    · rw [List.flatten_cons, ih, List.take_append_drop]

/-- Cuts enough leave no piece longer than `m`. -/
theorem length_le_of_mem_splitLoop {m k : Nat} {b c : List Byte} (hm : 0 < m) (hk : b.length ≤ k)
    (hc : c ∈ splitLoop m k b) : c.length ≤ m := by
  induction k generalizing b with
  | zero =>
    rw [List.mem_singleton.mp hc]
    omega
  | succ k ih =>
    rw [splitLoop] at hc
    split at hc
    case isTrue hb => rwa [List.mem_singleton.mp hc]
    case isFalse hb =>
      rcases List.mem_cons.mp hc with rfl | hc
      · exact List.length_take_le m b
      · exact ih (by rw [List.length_drop]; omega) hc

theorem splitChunks_flatten (b : List Byte) : (splitChunks b).flatten = b :=
  splitLoop_flatten maxChunk b.length b

theorem length_le_of_mem_splitChunks {b c : List Byte} (hc : c ∈ splitChunks b) :
    c.length ≤ maxChunk := length_le_of_mem_splitLoop (by decide) le_rfl hc

theorem mkUpdate_wellFormed {c : List Byte} (hc : c.length < 2 ^ 60) :
    (mkUpdate c).wellFormed = true := by
  have hlen : c.length = (BitVec.ofNat 60 c.length).toNat := by
    rw [BitVec.toNat_ofNat, Nat.mod_eq_of_lt hc]
  simp only [mkUpdate, Instr.wellFormed, opcodeOf_updateHeader, lenOf_updateHeader, ← hlen,
    decide_true, Bool.and_self]

theorem expandUpdate_wellFormed {b : List Byte} {i : Instr} (hi : i ∈ expandUpdate b) :
    i.wellFormed = true := by
  obtain ⟨c, hc, rfl⟩ := List.mem_map.mp hi
  exact mkUpdate_wellFormed ((length_le_of_mem_splitChunks hc).trans_lt (by decide))

theorem expandHash_wellFormed {b : List Byte} {seed : Seed} {i : Instr}
    (hi : i ∈ expandHash b seed) : i.wellFormed = true := by
  rcases List.mem_cons.mp hi with rfl | hi
  · rfl
  · rcases List.mem_append.mp hi with hi | hi
    · exact expandUpdate_wellFormed hi
    · rw [List.mem_singleton.mp hi]
      rfl

/-! ### Programs -/

theorem EngineCore.acceptAll_append (e : EngineCore) (ws ws' : List Word) :
    e.acceptAll (ws ++ ws') = (e.acceptAll ws).bind fun e' => e'.acceptAll ws' :=
  List.foldlM_append

/-- The words of a program run its commands in order (20_memory.md R61). -/
theorem EngineCore.acceptAll_programWords {is : List Instr} {e : EngineCore}
    (hw : ∀ i ∈ is, i.wellFormed = true) (hseq : e.seq = .idle) :
    e.acceptAll (programWords is) = is.foldlM EngineCore.runCommand e := by
  induction is generalizing e with
  | nil => rfl
  | cons i is ih =>
    obtain ⟨hi, his⟩ := List.forall_mem_cons.mp hw
    rw [programWords, List.flatMap_cons, acceptAll_append, acceptAll_encode hi hseq,
      List.foldlM_cons]
    exact Option.bind_congr fun e' he' => ih his (runCommand_seq he')

/-- UPDATEs of a ready engine change its hashing fields alone. -/
theorem EngineCore.foldlM_runCommand_mkUpdate {e : EngineCore} (hi : e.initialised = true)
    (hseq : e.seq = .idle) (chunks : List (List Byte)) :
    (chunks.map mkUpdate).foldlM EngineCore.runCommand e =
      some (e.setHash (chunks.foldl (fun h c => updateHash c h) e.hash)) := by
  induction chunks generalizing e with
  | nil => rfl
  | cons c chunks ih =>
    have hone : e.runCommand (mkUpdate c) = some (e.setHash (updateHash c e.hash)) := by
      rw [mkUpdate, runCommand, update_of_ready hi, ← hseq]
      rfl
    rw [List.map_cons, List.foldlM_cons, hone]
    exact ih (e := e.setHash (updateHash c e.hash)) hi hseq

theorem EngineCore.runCommand_digest_of_ready {e : EngineCore} (hi : e.initialised = true)
    (hroom : e.respQ.length < Config.respDepth) :
    e.runCommand .digest = some
      { e with
        hash := initHash e.hash.seed
        seq := .idle
        respQ := e.respQ ++ [{ code := .digestOk, value := digestValue e.hash }] } := by
  rw [runCommand, if_pos hi, respond_of_room hroom]

/-- HASH leaves the one-shot hash and the post-init fields of its seed (44_oneshot.md R180, R181). -/
theorem EngineCore.foldlM_runCommand_expandHash {e : EngineCore}
    (hroom : e.respQ.length < Config.respDepth) (b : List Byte) (seed : Seed) :
    (expandHash b seed).foldlM EngineCore.runCommand e = some
      { initialised := true, hash := initHash seed, seq := .idle
        respQ := e.respQ ++ [{ code := .digestOk, value := hashOf b seed }] } := by
  have hsized : (initHash seed).Sized := rfl
  have hinit : e.runCommand (.init seed) =
      some { e with initialised := true, hash := initHash seed, seq := .idle } := rfl
  rw [expandHash, expandUpdate, List.foldlM_cons, hinit, Option.bind_eq_bind, Option.bind_some,
    List.foldlM_append, foldlM_runCommand_mkUpdate rfl rfl, Option.bind_eq_bind, Option.bind_some,
    foldl_updateHash hsized, splitChunks_flatten, List.foldlM_cons,
    runCommand_digest_of_ready]
  · simp only [setHash, updateHash_seed, initHash_seed, hashOf]
    rfl
  · rfl
  · exact hroom

/-- Settles O44: the words of HASH do to `S` what HASH does (`EngineCore.acceptAll_programWords`,
`EngineCore.foldlM_runCommand_expandHash`), at any depth of the command queue (`runFor_midSend`). -/
theorem sessionFromResetDeliversTheHash : Obligations.SessionFromResetDeliversTheHash := by
  unfold Obligations.SessionFromResetDeliversTheHash
  intro b seed ws
  have hall : State.reset.engine.acceptAll ws = some _ :=
    (EngineCore.acceptAll_programWords (fun _ => expandHash_wellFormed) rfl).trans
      (EngineCore.foldlM_runCommand_expandHash
        (e := State.reset.engine) Config.respDepth_pos b seed)
  exact ⟨_, runFor_midSend (e := State.reset.engine) (cs := []) (ps := ws) [] (by simp) hall,
    ⟨rfl, rfl, rfl, .inl rfl⟩, rfl, rfl, rfl⟩

end Sys2Proof.Machine

/-!
PROOFS. Engines of a platform (20_memory.md R66, 60_exceptions.md R213), and a beat read as a word
(R54).
-/

namespace Sys2Proof.Machine

theorem platformStep_of_none {p : Platform} {k : Nat} (hk : p.engines[k]? = none) :
    platformStep k p = p := by
  simp only [platformStep, hk]

theorem platformStep_of_some {p : Platform} {k : Nat} {s t : State}
    (hk : p.engines[k]? = some s) (hs : step s = .next t) :
    platformStep k p = { engines := p.engines.set k t } := by
  simp only [platformStep, hk, hs]

/-- A move of engine `k` puts a state at place `k` that is told by engine `k` alone. -/
theorem platformStep_getElem?_self {p : Platform} {k : Nat} {s t : State}
    (hk : p.engines[k]? = some s) (hs : step s = .next t) :
    (platformStep k p).engines[k]? = some t := by
  obtain ⟨hlt, -⟩ := List.getElem?_eq_some_iff.mp hk
  rw [platformStep_of_some hk hs]
  exact List.getElem?_set_self hlt

/-- Settles O55, by whether there is an engine `k`. -/
theorem enginesShareNothing : Obligations.EnginesShareNothing := by
  unfold Obligations.EnginesShareNothing
  intro p p' k j
  cases hk : p.engines[k]? with
  | none =>
    rw [platformStep_of_none hk]
    exact ⟨fun _ => rfl, fun h => by rw [platformStep_of_none h.symm, hk, h], rfl⟩
  | some s =>
    obtain ⟨t, ht⟩ := step_answers_next s
    refine ⟨fun hj => ?_, fun h => ?_, ?_⟩
    · rw [platformStep_of_some hk ht]
      exact List.getElem?_set_ne hj.symm
    · rw [platformStep_getElem?_self hk ht, platformStep_getElem?_self h.symm ht]
    · rw [platformStep_of_some hk ht]
      exact List.length_set

theorem getLsbD_beatByte (w : Word) (i j : Nat) :
    (beatByte w i).getLsbD j = (decide (j < 8) && w.getLsbD (8 * i + j)) :=
  BitVec.getLsbD_extractLsb' ..

theorem beatBytes_getD (w : Word) {i : Nat} (hi : i < 8) :
    (beatBytes w).getD i 0 = beatByte w i := by
  interval_cases i <;> rfl

/-- A word is its eight bytes. -/
theorem eq_of_beatByte_eq {v w : Word} (h : ∀ i, i < 8 → beatByte v i = beatByte w i) : v = w := by
  apply BitVec.eq_of_getLsbD_eq
  intro j hj
  have hbit : ∀ u : Word, (beatByte u (j / 8)).getLsbD (j % 8) = u.getLsbD j := fun u => by
    rw [getLsbD_beatByte, Nat.div_add_mod, decide_eq_true (Nat.mod_lt j (by decide)), Bool.true_and]
  rw [← hbit v, h (j / 8) (by omega), hbit w]

/-- Settles O59: byte `i` of the read word is the stream's (`beatByte_readLE`), which is the beat's. -/
theorem alignedBeatIsItsWord : Obligations.AlignedBeatIsItsWord := by
  unfold Obligations.AlignedBeatIsItsWord
  intro w before after
  refine eq_of_beatByte_eq fun i hi => ?_
  have hlt : i < (beatBytes w).length := hi
  rw [beatByte_readLE _ _ le_rfl hi, List.append_assoc,
    List.getD_append_right _ _ _ _ (Nat.le_add_right _ _), Nat.add_sub_cancel_left,
    List.getD_append _ _ _ _ hlt, beatBytes_getD w hi]

end Sys2Proof.Machine

/-!
PROOFS. A command's words decode to the command, and what decodes has its own header and length
(30_encoding.md R72 to R81).
-/

namespace Sys2Proof.Machine

/-! ### A chunk in its beats -/

/-- Byte `i` of beat `k` is the chunk's byte `8*k+i`, and behind the chunk the padding (R78, R87). -/
theorem beatByte_packBeat (b : List Byte) (k : Nat) {i : Nat} (hi : i < 8) :
    beatByte (packBeat b k) i = b.getD (8 * k + i) 0 := by
  rw [packBeat, beatByte_readLE _ _ le_rfl hi, Nat.zero_add]
  by_cases hb : 8 * k + i < b.length
  · have hlt : i < ((b.drop (8 * k)).take 8).length := by
      rw [List.length_take, List.length_drop]
      omega
    rw [List.getD_append _ _ _ _ hlt, List.getD_eq_getElem _ _ hlt, List.getD_eq_getElem _ _ hb,
      List.getElem_take, List.getElem_drop]
  · have hle : ((b.drop (8 * k)).take 8).length ≤ i := by
      rw [List.length_take, List.length_drop]
      omega
    rw [List.getD_append_right _ _ _ _ hle, List.getD_eq_default _ _ (Nat.not_lt.mp hb)]
    exact List.getElem?_getD_replicate_default_eq ..

/-- Byte `j` of a chunk stands in beat `j / 8`, whatever words follow the beats (R78). -/
theorem beatByte_packBeats_append {b : List Byte} {j : Nat} (hj : j < b.length) (rest : List Word) :
    beatByte ((packBeats b ++ rest).getD (j / 8) 0) (j % 8) = b.getD j 0 := by
  have hbeat : j / 8 < (packBeats b).length := by
    rw [packBeats_length, beatCount]
    omega
  have hpack : (packBeats b).getD (j / 8) 0 = packBeat b (j / 8) := by
    rw [List.getD_eq_getElem _ _ hbeat]
    simp [packBeats]
  rw [List.getD_append _ _ _ _ hbeat, hpack, beatByte_packBeat b _ (Nat.mod_lt j (by decide)),
    Nat.div_add_mod]

/-- The decoder reads the chunk from the words behind its header. -/
theorem chunkOf_packBeats_append (b : List Byte) (rest : List Word) :
    chunkOf b.length (fun k => (packBeats b ++ rest).getD k 0) = b := by
  refine List.ext_getElem (chunkOf_length _ _) fun j _ hj => ?_
  rw [← List.getD_eq_getElem b 0 hj, ← beatByte_packBeats_append hj rest]
  simp [chunkOf]

/-- Settles O3, with no words behind the beats (`beatByte_packBeats_append`). -/
theorem payloadByteLandsInItsBeat : Obligations.PayloadByteLandsInItsBeat := by
  unfold Obligations.PayloadByteLandsInItsBeat
  intro b
  refine ⟨packBeats_length b, fun j hj => ?_, ?_⟩
  · rw [← List.append_nil (packBeats b)]
    exact beatByte_packBeats_append hj []
  · rw [← List.append_nil (packBeats b)]
    exact chunkOf_packBeats_append b []

/-! ### Headers and their fields -/

theorem eq_opcodeOf_append_lenOf (w : Word) : w = opcodeOf w ++ lenOf w := by
  have hall : opcodeOf w ++ lenOf w = w.extractLsb' 0 64 :=
    BitVec.extractLsb'_append_extractLsb'_eq_extractLsb' (show 60 = 0 + 60 from rfl)
  rw [hall, BitVec.extractLsb'_eq_self]

theorem eq_opcodeOf_append_initFields (w : Word) :
    w = opcodeOf w ++ initReservedOf w ++ seedOf w := by
  have hhigh : opcodeOf w ++ initReservedOf w = w.extractLsb' 32 32 :=
    BitVec.extractLsb'_append_extractLsb'_eq_extractLsb' (show 60 = 32 + 28 from rfl)
  have hall : w.extractLsb' 32 32 ++ seedOf w = w.extractLsb' 0 64 :=
    BitVec.extractLsb'_append_extractLsb'_eq_extractLsb' (show 32 = 0 + 32 from rfl)
  rw [hhigh, hall, BitVec.extractLsb'_eq_self]

/-- Only the encoder's own words decode to INIT, to an UPDATE of `n` bytes and to DIGEST. -/
theorem decodeHeader_eq_init_iff {w : Word} {seed : Seed} :
    decodeHeader w = .init seed ↔ w = initHeader seed := by
  refine ⟨fun h => ?_, fun h => h ▸ decodeHeader_initHeader seed⟩
  unfold decodeHeader at h
  split_ifs at h with ho hr
  rw [eq_opcodeOf_append_initFields w, ho, hr, Header.init.inj h, initHeader]

theorem decodeHeader_eq_update_iff {w : Word} {n : Len} :
    decodeHeader w = .update n ↔ w = updateHeader n := by
  refine ⟨fun h => ?_, fun h => h ▸ decodeHeader_updateHeader n⟩
  obtain ⟨ho, rfl⟩ := decodeHeader_eq_update h
  rw [updateHeader, ← ho]
  exact eq_opcodeOf_append_lenOf w

theorem decodeHeader_eq_digest_iff {w : Word} : decodeHeader w = .digest ↔ w = digestHeader := by
  refine ⟨fun h => ?_, fun h => h ▸ decodeHeader_digestHeader⟩
  unfold decodeHeader at h
  split_ifs at h with _ _ _ ho hl
  rw [eq_opcodeOf_append_lenOf w, ho, hl, digestHeader]

/-! ### Decoding a stream -/

theorem decode_cons_eq_command_iff {w : Word} {ws rest : List Word} {i : Instr} :
    decode (w :: ws) = .command i rest ↔
      decodeWith w (fun k => ws.getD k 0) = some i ∧ payloadBeats w ≤ ws.length ∧
        rest = ws.drop (payloadBeats w) := by
  rw [decode]
  cases decodeWith w (fun k => ws.getD k 0) with
  | none => simp
  | some j =>
    by_cases hl : payloadBeats w ≤ ws.length
    · simp [hl, eq_comm]
    · simp [hl]

/-- A well-formed command's words are its header, from which and from the words behind it the command
is decoded, and as many beats as the header tells. -/
theorem decodeWith_encode {i : Instr} (hw : i.wellFormed = true) :
    ∃ w beats, encode i = w :: beats ∧ beats.length = payloadBeats w ∧
      ∀ rest : List Word, decodeWith w (fun k => (beats ++ rest).getD k 0) = some i := by
  cases i with
  | init seed =>
    have hd := decodeHeader_initHeader seed
    exact ⟨initHeader seed, [], rfl, by simp [payloadBeats, hd], by simp [decodeWith, hd]⟩
  | update hdr b =>
    obtain ⟨hd, hlen⟩ := wellFormed_update hw
    refine ⟨hdr, packBeats b, rfl, by simp [payloadBeats, hd, hlen], fun rest => ?_⟩
    simp only [decodeWith, hd, ← hlen, chunkOf_packBeats_append]
  | digest =>
    have hd := decodeHeader_digestHeader
    exact ⟨digestHeader, [], rfl, by simp [payloadBeats, hd], by simp [decodeWith, hd]⟩

/-- Settles O1: the header tells the length and its beats carry the chunk (`decodeWith_encode`). -/
theorem decodeOfEncodeIsTheCommand : Obligations.DecodeOfEncodeIsTheCommand := by
  unfold Obligations.DecodeOfEncodeIsTheCommand
  intro i rest hw
  obtain ⟨w, beats, he, hlen, hd⟩ := decodeWith_encode hw
  rw [he, List.cons_append, decode_cons_eq_command_iff]
  refine ⟨hd rest, ?_, ?_⟩
  · rw [List.length_append, hlen]
    exact Nat.le_add_right _ _
  · rw [← hlen, List.drop_left]

/-- Whatever a header decodes to has that header, and as many beats as it tells. -/
theorem encode_of_decodeWith {w : Word} {d : Nat → Word} {i : Instr}
    (h : decodeWith w d = some i) :
    i.wellFormed = true ∧ ∃ beats, encode i = w :: beats ∧ beats.length = payloadBeats w := by
  unfold decodeWith at h
  cases hd : decodeHeader w with
  | init seed =>
    obtain rfl : .init seed = i := by simpa [hd] using h
    exact ⟨rfl, [], by rw [decodeHeader_eq_init_iff.mp hd]; rfl, by simp [payloadBeats, hd]⟩
  | update n =>
    obtain ⟨ho, hl⟩ := decodeHeader_eq_update hd
    obtain rfl : .update w (chunkOf n.toNat d) = i := by simpa [hd] using h
    exact ⟨by simp [Instr.wellFormed, ho, hl], packBeats _, rfl, by simp [payloadBeats, hd]⟩
  | digest =>
    obtain rfl : .digest = i := by simpa [hd] using h
    exact ⟨rfl, [], by rw [decodeHeader_eq_digest_iff.mp hd]; rfl, by simp [payloadBeats, hd]⟩
  | reservedOpcode => simp [hd] at h
  | reservedBits => simp [hd] at h

/-- Settles O2, by the header the command was decoded from (`encode_of_decodeWith`). -/
theorem decodedCommandHasItsHeaderAndLength : Obligations.DecodedCommandHasItsHeaderAndLength := by
  unfold Obligations.DecodedCommandHasItsHeaderAndLength
  intro w ws i rest h
  obtain ⟨hi, hle, hrest⟩ := decode_cons_eq_command_iff.mp h
  obtain ⟨hw, beats, he, hlen⟩ := encode_of_decodeWith hi
  rw [he, List.length_cons, hlen]
  exact ⟨hw, rfl, Nat.succ_le_succ hle, hrest⟩

end Sys2Proof.Machine

/-!
PROOFS. The opcode table, and which headers are illegal (30_encoding.md R72 to R76, R86).
-/

namespace Sys2Proof.Machine

/-! ### A header under a row's mask -/

theorem bitVec_append_inj {m n : Nat} {a a' : BitVec m} {b b' : BitVec n} :
    a ++ b = a' ++ b' ↔ a = a' ∧ b = b' := by
  refine ⟨fun h => ⟨?_, ?_⟩, fun ⟨ha, hb⟩ => by rw [ha, hb]⟩
  · rw [← BitVec.extractLsb'_append_eq_left (a := a) (b := b), h, BitVec.extractLsb'_append_eq_left]
  · rw [← BitVec.extractLsb'_append_eq_right (a := a) (b := b), h,
      BitVec.extractLsb'_append_eq_right]

/-- The INIT row looks at the opcode and the reserved bits. -/
theorem and_initMask_eq_iff (w : Word) :
    w &&& 0xFFFFFFFF00000000#64 = 0x1000000000000000#64 ↔
      opcodeOf w = 0b0001#4 ∧ initReservedOf w = 0#28 := by
  have hmask : w &&& 0xFFFFFFFF00000000#64 = opcodeOf w ++ initReservedOf w ++ 0#32 :=
    calc w &&& 0xFFFFFFFF00000000#64
        = (opcodeOf w ++ initReservedOf w ++ seedOf w) &&&
            (BitVec.allOnes 4 ++ BitVec.allOnes 28 ++ 0#32) :=
          congrArg (· &&& 0xFFFFFFFF00000000#64) (eq_opcodeOf_append_initFields w)
      _ = opcodeOf w ++ initReservedOf w ++ 0#32 := by
          rw [BitVec.and_append, BitVec.and_append, BitVec.and_allOnes, BitVec.and_allOnes,
            BitVec.and_zero]
  have hpattern : 0x1000000000000000#64 = 0b0001#4 ++ 0#28 ++ 0#32 := rfl
  rw [hmask, hpattern, bitVec_append_inj, bitVec_append_inj, and_iff_left rfl]

/-- The UPDATE row looks at the opcode. -/
theorem and_updateMask_eq_iff (w : Word) :
    w &&& 0xF000000000000000#64 = 0x2000000000000000#64 ↔ opcodeOf w = 0b0010#4 := by
  have hmask : w &&& 0xF000000000000000#64 = opcodeOf w ++ 0#60 :=
    calc w &&& 0xF000000000000000#64
        = (opcodeOf w ++ lenOf w) &&& (BitVec.allOnes 4 ++ 0#60) :=
          congrArg (· &&& 0xF000000000000000#64) (eq_opcodeOf_append_lenOf w)
      _ = opcodeOf w ++ 0#60 := by
          rw [BitVec.and_append, BitVec.and_allOnes, BitVec.and_zero]
  have hpattern : 0x2000000000000000#64 = 0b0010#4 ++ 0#60 := rfl
  rw [hmask, hpattern, bitVec_append_inj, and_iff_left rfl]

/-- The DIGEST row looks at every bit. -/
theorem eq_digestHeader_iff (w : Word) :
    w = digestHeader ↔ opcodeOf w = 0b0011#4 ∧ lenOf w = 0#60 := by
  rw [← bitVec_append_inj, ← eq_opcodeOf_append_lenOf, digestHeader]

/-- Settles O6: a row's mask keeps the fields that `decodeHeader` tests. -/
theorem headerDecodesByItsRow : Obligations.HeaderDecodesByItsRow := by
  unfold Obligations.HeaderDecodesByItsRow
  intro w
  refine ⟨?_, ?_, decodeHeader_eq_digest_iff.symm⟩
  · rw [and_initMask_eq_iff]
    refine ⟨fun ⟨ho, hr⟩ => decodeHeader_of_init ho hr, fun h => ?_⟩
    rw [decodeHeader_eq_init_iff.mp h]
    exact ⟨opcodeOf_initHeader _, initReservedOf_initHeader _⟩
  · rw [and_updateMask_eq_iff]
    exact ⟨decodeHeader_of_update, fun h => (decodeHeader_eq_update h).1⟩

/-! ### Illegal headers -/

/-- The word is a command by itself that raises ERR_ILLEGAL_COMMAND (60_exceptions.md R202). -/
def IllegalHeader (w : Word) : Prop :=
  decodeHeader w = .reservedOpcode ∨ decodeHeader w = .reservedBits

theorem opcode_reserved_iff (op : BitVec 4) :
    op = 0#4 ∨ 4 ≤ op.toNat ↔ op ≠ 0b0001#4 ∧ op ≠ 0b0010#4 ∧ op ≠ 0b0011#4 := by
  revert op
  decide

/-- The illegal headers, field by field (R75, R76). -/
theorem illegalHeader_iff (w : Word) :
    IllegalHeader w ↔
      opcodeOf w = 0#4 ∨ 4 ≤ (opcodeOf w).toNat ∨
      (opcodeOf w = 0b0001#4 ∧ initReservedOf w ≠ 0#28) ∨
      (opcodeOf w = 0b0011#4 ∧ lenOf w ≠ 0#60) := by
  rw [← or_assoc, opcode_reserved_iff, IllegalHeader, decodeHeader]
  split_ifs <;> simp_all

/-- The illegal headers are those that decode to no command. -/
theorem illegalHeader_iff_no_row (w : Word) :
    IllegalHeader w ↔ ∀ r ∈ opcodeTable, rowMatches r w = false := by
  have hdigest : w &&& 0xFFFFFFFFFFFFFFFF#64 = 0x3000000000000000#64 ↔ w = digestHeader := by
    rw [show 0xFFFFFFFFFFFFFFFF#64 = BitVec.allOnes 64 from rfl, BitVec.and_allOnes]
    rfl
  simp only [opcodeTable, rowMatches, List.forall_mem_cons, decide_eq_false_iff_not,
    and_initMask_eq_iff, and_updateMask_eq_iff, hdigest, eq_digestHeader_iff]
  rw [IllegalHeader, decodeHeader]
  split_ifs <;> simp_all

/-! ### At most one row -/

/-- A header matches only a row of its own opcode, since every row's mask keeps the opcode. -/
theorem opcodeOf_pattern_of_rowMatches {r : OpcodeRow} {w : Word} (hr : r ∈ opcodeTable)
    (h : rowMatches r w = true) : opcodeOf r.pattern = opcodeOf w := by
  have hmask : ∀ r ∈ opcodeTable, opcodeOf r.mask = BitVec.allOnes 4 := by decide
  rw [← of_decide_eq_true h, opcodeOf, BitVec.extractLsb'_and]
  exact (congrArg _ (hmask r hr)).trans BitVec.and_allOnes

theorem rows_of_opcode_length_le (op : BitVec 4) :
    (opcodeTable.filter fun r => opcodeOf r.pattern = op).length ≤ 1 := by
  revert op
  decide

theorem matching_rows_length_le (w : Word) :
    (opcodeTable.filter fun r => rowMatches r w).length ≤ 1 := by
  have hsub : (opcodeTable.filter fun r => rowMatches r w).length ≤
      (opcodeTable.filter fun r => opcodeOf r.pattern = opcodeOf w).length := by
    rw [← List.countP_eq_length_filter, ← List.countP_eq_length_filter]
    exact List.countP_mono_left fun r hr h =>
      decide_eq_true (opcodeOf_pattern_of_rowMatches hr h)
  exact hsub.trans (rows_of_opcode_length_le (opcodeOf w))

/-! ### Steps of an illegal header -/

/-- An error is a record with the word consumed, or a hold (60_exceptions.md R204). -/
theorem raise_of_word {s : State} {w : Word} {rest : List Word} (hc : s.cmdIn = w :: rest)
    (e : RespCode) (v : Word) :
    raise e v s = if s.respQ.length < Config.respDepth then
        .next { s with
          cmdIn := rest, seq := .idle, respQ := s.respQ ++ [{ code := e, value := v }] }
      else .next s := by
  rw [raise]
  split_ifs with hroom
  · rw [respond_of_room hroom, State.endCommand, State.emit, hc]
    rfl
  · exact respond_of_full (Nat.not_lt.mp hroom) e v s

theorem acceptHeader_of_illegal {w : Word} (hw : IllegalHeader w) (s : State) :
    acceptHeader w s = raise .errIllegalCommand w s := by
  rcases hw with hd | hd <;> simp only [acceptHeader, hd]

theorem step_of_idle {s : State} {w : Word} {rest : List Word} (hh : s.host = [])
    (hseq : s.seq = .idle) (hc : s.cmdIn = w :: rest) : step s = acceptHeader w s :=
  (step_of_quiet hh).trans (engineStep_of_idle hseq hc)

theorem step_of_illegal {s : State} {w : Word} {rest : List Word} (hh : s.host = [])
    (hseq : s.seq = .idle) (hc : s.cmdIn = w :: rest) (hw : IllegalHeader w) :
    step s = if s.respQ.length < Config.respDepth then
        .next { s with
          cmdIn := rest, respQ := s.respQ ++ [{ code := .errIllegalCommand, value := w }] }
      else .next s := by
  rw [step_of_idle hh hseq hc, acceptHeader_of_illegal hw, raise_of_word hc, ← hseq]

/-- Settles O5: the rows' opcodes differ (`matching_rows_length_le`), and a header of no row is an
illegal one (`illegalHeader_iff_no_row`). -/
theorem headerMatchesAtMostOneRow : Obligations.HeaderMatchesAtMostOneRow := by
  unfold Obligations.HeaderMatchesAtMostOneRow
  intro w
  refine ⟨matching_rows_length_le w, fun hop => ?_, fun hnone s rest hh hseq hc hroom => ?_⟩
  · exact (illegalHeader_iff_no_row w).mp ((illegalHeader_iff w).mpr (hop.imp_right .inl))
  · rw [step_of_illegal hh hseq hc ((illegalHeader_iff_no_row w).mpr hnone), if_pos hroom]

/-! ### What a word adds to the response queue -/

theorem EngineCore.respond_respQ {e e' : EngineCore} {h : HashState} {c : RespCode} {v : Word}
    (he : e.respond h c v = some e') : e'.respQ = e.respQ ++ [{ code := c, value := v }] := by
  rw [(EngineCore.respond_cases he).2]

/-- What an accepted word adds to the response queue; ERR_ILLEGAL_COMMAND only for an illegal header
at Idle. -/
theorem EngineCore.accept_respQ {e e' : EngineCore} {w : Word} (he : e.accept w = some e') :
    e'.respQ = e.respQ ∨
    (∃ c v, c ≠ .errIllegalCommand ∧ e'.respQ = e.respQ ++ [{ code := c, value := v }]) ∨
    (e.seq = .idle ∧ IllegalHeader w) := by
  rcases EngineCore.accept_cases he with ⟨seed, -, -, rfl⟩ | ⟨hdr, b, -, hu⟩ | ⟨n, -, -, -, rfl⟩ |
    ⟨hdr, need, got, -, -, rfl⟩ | ⟨-, -, -, hr⟩ | ⟨-, -, -, hr⟩ | ⟨hidle, hw, -⟩
  · exact .inl rfl
  · rcases EngineCore.update_cases hu with ⟨-, rfl⟩ | ⟨-, hr⟩
    · exact .inl rfl
    · exact .inr (.inl ⟨.errNotInitialised, hdr, nofun, EngineCore.respond_respQ hr⟩)
  · exact .inl rfl
  · exact .inl rfl
  · exact .inr (.inl ⟨.digestOk, _, nofun, EngineCore.respond_respQ hr⟩)
  · exact .inr (.inl ⟨.errNotInitialised, _, nofun, EngineCore.respond_respQ hr⟩)
  · exact .inr (.inr ⟨hidle, hw⟩)

/-- A step that is not held accepts the word at the head of CMD_IN (70_reset_and_hazards.md R234). -/
theorem step_of_not_held {s : State} {w : Word} {rest : List Word} (hh : s.host = [])
    (hc : s.cmdIn = w :: rest) (hheld : ¬s.Held) :
    ∃ e, s.engine.accept w = some e ∧ step s = .next (e.withPorts rest [] s.taken) := by
  obtain ⟨e, ha⟩ := Option.ne_none_iff_exists'.mp fun h => hheld ((accept_eq_none_iff hc).mp h)
  exact ⟨e, ha, by rw [step_of_quiet hh, engineStep_of_word hc, ha, hh]⟩

/-- Settles O33: an illegal header at Idle raises the error (`step_of_illegal`), and no other word
does (`EngineCore.accept_respQ`). -/
theorem illegalHeaderIsReported : Obligations.IllegalHeaderIsReported := by
  unfold Obligations.IllegalHeaderIsReported
  intro s w rest hh hc hroom illegal
  refine ⟨fun hseq hw => ?_, fun hother => ?_⟩
  · rw [step_of_illegal hh hseq hc ((illegalHeader_iff w).mpr hw), if_pos hroom]
  · have hheld : ¬s.Held := fun ⟨_, hfull⟩ => Nat.not_lt.mpr hfull hroom
    obtain ⟨e, ha, hstep⟩ := step_of_not_held hh hc hheld
    refine ⟨_, hstep, fun v hv => ?_⟩
    rcases EngineCore.accept_respQ ha with hkeep | ⟨c, v', hc', hadd⟩ | ⟨hidle, hw⟩
    · have hsame : s.respQ = s.respQ ++ [{ code := .errIllegalCommand, value := v }] :=
        hkeep.symm.trans hv
      simp at hsame
    · have hrecord := List.append_cancel_left (hadd.symm.trans hv)
      exact hc' (by injection (List.singleton_injective hrecord))
    · exact hother.elim (· hidle) (· ((illegalHeader_iff w).mp hw))

/-- Settles O41, by `step_of_not_held`. -/
theorem unheldWordIsAccepted : Obligations.UnheldWordIsAccepted := by
  unfold Obligations.UnheldWordIsAccepted
  intro s w rest hh hc hheld
  obtain ⟨e, -, hstep⟩ := step_of_not_held hh hc hheld
  exact ⟨_, hstep, rfl, rfl, rfl⟩

end Sys2Proof.Machine

/-!
PROOFS. The decoder's cases word by word, and the payload behind an UPDATE's header (30_encoding.md R79,
R80, R85).
-/

namespace Sys2Proof.Machine

/-! ### One word, by its case -/

theorem acceptHeader_of_init {w : Word} {seed : Seed} (hd : decodeHeader w = .init seed)
    (s : State) : acceptHeader w s = exec (.init seed) s := by
  simp only [acceptHeader, hd]

theorem acceptHeader_of_update {w : Word} {n : Len} (hd : decodeHeader w = .update n) (s : State) :
    acceptHeader w s = if n.toNat = 0 then exec (.update w []) s
      else .next (s.collectMore w (beatCount n.toNat) []) := by
  simp only [acceptHeader, hd]

theorem acceptHeader_of_digest {w : Word} (hd : decodeHeader w = .digest) (s : State) :
    acceptHeader w s = exec .digest s := by
  simp only [acceptHeader, hd]

theorem collectMore_of_word {s : State} {w : Word} {rest : List Word} (hc : s.cmdIn = w :: rest)
    (hdr : Word) (need : Nat) (got : List Byte) :
    s.collectMore hdr need got = { s with cmdIn := rest, seq := .collect hdr need got } := by
  rw [State.collectMore, hc]
  rfl

theorem step_of_collect {s : State} {w hdr : Word} {need : Nat} {got : List Byte}
    {rest : List Word} (hh : s.host = []) (hseq : s.seq = .collect hdr need got)
    (hc : s.cmdIn = w :: rest) : step s = acceptBeat hdr need got w s :=
  (step_of_quiet hh).trans (engineStep_of_collect hseq hc)

theorem step_of_held {s : State} (hh : s.host = []) (hheld : s.Held) : step s = .next s := by
  rw [step_of_quiet hh]
  rcases hc : s.cmdIn with _ | ⟨w, rest⟩
  · exact engineStep_of_empty hc
  · rw [engineStep_of_word hc, (accept_eq_none_iff hc).mpr hheld]

/-- Settles O7, a case of `acceptHeader` or `acceptBeat` each, and the hold (`step_of_held`). -/
theorem wordIsTakenByItsDecoderCase : Obligations.WordIsTakenByItsDecoderCase := by
  unfold Obligations.WordIsTakenByItsDecoderCase
  intro s w rest hh hc
  refine ⟨fun hseq => ⟨fun ho hr => ?init, fun ho hn => ?empty, fun ho hn => ?payload,
    fun ho hl => ?digest, fun hw => ?illegal⟩, fun hdr need got hseq => ⟨fun hn => ?last,
    fun hn => ?beat⟩, fun hrec hfull => step_of_held hh ⟨hrec, hfull⟩⟩
  case init =>
    rw [step_of_idle hh hseq hc]
    exact acceptHeader_of_init (decodeHeader_of_init ho hr) s
  case empty =>
    have hzero : (lenOf w).toNat = 0 := congrArg BitVec.toNat hn
    rw [step_of_idle hh hseq hc, acceptHeader_of_update (decodeHeader_of_update ho), if_pos hzero]
  case payload =>
    have hpos : (lenOf w).toNat ≠ 0 := fun h0 => hn (BitVec.eq_of_toNat_eq h0)
    rw [step_of_idle hh hseq hc, acceptHeader_of_update (decodeHeader_of_update ho), if_neg hpos,
      collectMore_of_word hc]
    rfl
  case digest =>
    rw [step_of_idle hh hseq hc, acceptHeader_of_digest (decodeHeader_of_digest ho hl)]
  case illegal =>
    refine step_of_illegal hh hseq hc ((illegalHeader_iff w).mpr ?_)
    rcases hw with hi | hd | hop
    · exact .inr (.inr (.inl hi))
    · exact .inr (.inr (.inr hd))
    · exact hop.imp_right .inl
  case last =>
    rw [step_of_collect hh hseq hc, acceptBeat, if_pos hn]
    rfl
  case beat =>
    rw [step_of_collect hh hseq hc, acceptBeat, if_neg hn, collectMore_of_word hc]
    rfl

/-! ### A payload that is not complete -/

/-- Fewer beats than are still to come are collected, in order, and never decoded (R80). -/
theorem EngineCore.acceptAll_of_beats_to_come {e : EngineCore} {hdr : Word} {need : Nat}
    {got : List Byte} {ws : List Word} (hseq : e.seq = .collect hdr need got)
    (hlt : ws.length < need) :
    e.acceptAll ws =
      some { e with seq := .collect hdr (need - ws.length) (got ++ ws.flatMap beatBytes) } := by
  induction ws generalizing e need got with
  | nil => simp [← hseq]
  | cons w ws ih =>
    rw [List.length_cons] at hlt
    have hmore : e.accept w =
        some { e with seq := .collect hdr (need - 1) (got ++ beatBytes w) } := by
      simp only [accept, hseq, if_neg (show need ≠ 1 by omega)]
    rw [acceptAll_cons, hmore, Option.bind_some, ih rfl (by omega), List.append_assoc,
      ← List.flatMap_cons (x := w), List.length_cons, Nat.sub_sub, Nat.add_comm 1]

/-- An UPDATE's header opens its payload, and the next words are beats of it. -/
theorem EngineCore.acceptAll_of_open_update {e : EngineCore} {hdr : Word} {ws : List Word}
    (hseq : e.seq = .idle) (ho : opcodeOf hdr = 0b0010#4)
    (hlt : ws.length < beatCount (lenOf hdr).toNat) :
    e.acceptAll (hdr :: ws) = some { e with
      seq := .collect hdr (beatCount (lenOf hdr).toNat - ws.length) (ws.flatMap beatBytes) } := by
  have hpos : (lenOf hdr).toNat ≠ 0 := by
    rw [beatCount] at hlt
    omega
  have hopen : e.accept hdr =
      some { e with seq := .collect hdr (beatCount (lenOf hdr).toNat) [] } := by
    simp only [accept, hseq, decodeHeader_of_update ho, if_neg hpos]
  rw [acceptAll_cons, hopen, Option.bind_some, acceptAll_of_beats_to_come rfl hlt,
    List.nil_append]

/-- With no word presented the engine waits for ever (60_exceptions.md R215). -/
theorem runFor_of_no_word {s : State} (hh : s.host = []) (hc : s.cmdIn = []) (k : Nat) :
    runFor k s = .next s :=
  runFor_of_step_self ((step_of_quiet hh).trans (engineStep_of_empty hc)) k

/-- Settles O10: the header and the beats are all accepted (`EngineCore.acceptAll_of_open_update`), and
then there is no word. -/
theorem wordsAfterUpdateHeaderArePayload : Obligations.WordsAfterUpdateHeaderArePayload := by
  unfold Obligations.WordsAfterUpdateHeaderArePayload
  intro s hdr ws rest hh hseq hc ho hlt
  have hs : s = s.engine.withPorts (hdr :: ws ++ rest) [] s.taken := by
    rw [← hc, ← hh, State.engine_withPorts]
  have hrun : runFor (ws.length + 1) s = .next { s with
      cmdIn := rest
      seq := .collect hdr (beatCount (lenOf hdr).toNat - ws.length) (ws.flatMap beatBytes) } := by
    conv_lhs => rw [hs]
    refine (runFor_of_acceptAll (EngineCore.acceptAll_of_open_update hseq ho hlt) rest _).trans ?_
    rw [← hh]
    rfl
  refine ⟨hrun, fun hrest k => ?_⟩
  rw [runFor_add step_answers_next hrun, hrun]
  refine runFor_of_no_word ?_ ?_ k
  · exact hh
  · exact hrest

/-! ### Padding -/

theorem take_beatBytes (w : Word) (k : Nat) :
    (beatBytes w).take k = (List.range (min k 8)).map (beatByte w) := by
  have hmap : beatBytes w = (List.range 8).map (beatByte w) := rfl
  rw [hmap, ← List.map_take, List.take_range]

/-- The chunk is cut from the beats before their padding (R79). -/
theorem take_append_beatBytes_congr {w w' : Word} {got : List Byte} {n : Nat}
    (h : ∀ j, j < 8 → got.length + j < n → beatByte w j = beatByte w' j) :
    (got ++ beatBytes w).take n = (got ++ beatBytes w').take n := by
  rw [List.take_append, List.take_append, take_beatBytes, take_beatBytes]
  refine congrArg _ (List.map_congr_left fun j hj => ?_)
  rw [List.mem_range] at hj
  exact h j (by omega) (by omega)

/-- An UPDATE of a ready engine, or with room for a record, is not held. -/
theorem EngineCore.update_of_ready_or_room {e : EngineCore}
    (h : e.initialised = true ∨ e.respQ.length < Config.respDepth) (hdr : Word) (b : List Byte) :
    ∃ e', e.update hdr b = some e' :=
  h.elim (fun hi => ⟨_, update_of_ready hi hdr b⟩) fun hroom =>
    runCommand_of_room hroom (.update hdr b)

/-- The last beat of a payload is consumed and runs the UPDATE. -/
theorem step_of_last_beat {s : State} {e : EngineCore} {hdr w : Word} {got : List Byte}
    {rest : List Word} (hh : s.host = []) (hseq : s.seq = .collect hdr 1 got)
    (hc : s.cmdIn = w :: rest)
    (hu : s.engine.update hdr ((got ++ beatBytes w).take (lenOf hdr).toNat) = some e) :
    step s = .next (e.withPorts rest [] s.taken) := by
  have hseq' : s.engine.seq = .collect hdr 1 got := hseq
  have ha : s.engine.accept w = some e := by
    simp only [EngineCore.accept, hseq', if_true, hu]
  rw [step_of_quiet hh, engineStep_of_word hc, ha, hh]

/-- Settles O11: the chunk is the same (`take_append_beatBytes_congr`), and the beat that differs is
consumed (`step_of_last_beat`). -/
theorem paddingBytesAreIgnored : Obligations.PaddingBytesAreIgnored := by
  unfold Obligations.PaddingBytesAreIgnored
  intro s hdr w w' got rest hh _ hready hagree
  obtain ⟨e, he⟩ := EngineCore.update_of_ready_or_room
    (e := { s.engine with seq := .collect hdr 1 got }) hready hdr
    ((got ++ beatBytes w).take (lenOf hdr).toNat)
  have he' := he
  rw [take_append_beatBytes_congr hagree] at he'
  have hstep : step { s with seq := .collect hdr 1 got, cmdIn := w :: rest } =
      .next (e.withPorts rest [] s.taken) := step_of_last_beat hh rfl rfl he
  have hstep' : step { s with seq := .collect hdr 1 got, cmdIn := w' :: rest } =
      .next (e.withPorts rest [] s.taken) := step_of_last_beat hh rfl rfl he'
  rw [hstep, hstep']

end Sys2Proof.Machine

/-!
PROOFS. What a long UPDATE is split into (30_encoding.md R88), which commands respond (R83), the bits of a
record (R82), the assembler's refusals (R87) and the worked encodings (R89).
-/

namespace Sys2Proof.Machine

/-- Settles O31, by `foldl_updateHash` on the pieces, which are the whole input
(`splitChunks_flatten`). -/
theorem splitUpdateEqualsOneUpdate : Obligations.SplitUpdateEqualsOneUpdate := by
  unfold Obligations.SplitUpdateEqualsOneUpdate
  intro b h hs
  refine ⟨fun _ => expandUpdate_wellFormed, splitChunks_flatten b,
    fun _ => length_le_of_mem_splitChunks, ?_⟩
  rw [foldl_updateHash hs, splitChunks_flatten]

/-! ### Records -/

theorem raise_of_room {s : State} (hroom : s.respQ.length < Config.respDepth) (c : RespCode)
    (v : Word) : raise c v s = .next (s.endCommand.emit c v) := respond_of_room hroom c v s

/-- Settles O36, command by command, ready or not. -/
theorem whichCommandsRespond : Obligations.WhichCommandsRespond := by
  unfold Obligations.WhichCommandsRespond
  intro s hroom
  refine ⟨fun seed => ⟨_, exec_init seed s, rfl⟩, fun hdr b => ?_, ?_,
    fun c v => ⟨_, _, raise_of_room hroom c v, rfl⟩⟩
  · cases hi : s.initialised with
    | true => exact ⟨_, exec_update_ready hi hdr b, fun _ => rfl, nofun⟩
    | false =>
      exact ⟨_, (exec_update_notReady hi hdr b).trans (raise_of_room hroom _ _), nofun,
        fun _ => ⟨_, rfl⟩⟩
  · cases hi : s.initialised with
    | true => exact ⟨_, _, (exec_digest_ready hi).trans (respond_of_room hroom _ _ _), rfl⟩
    | false => exact ⟨_, _, (exec_digest_notReady hi).trans (raise_of_room hroom _ _), rfl⟩

/-- Settles O37: the code stands above the value, and the three codes differ. -/
theorem recordBitsAreCodeAndValue : Obligations.RecordBitsAreCodeAndValue := by
  unfold Obligations.RecordBitsAreCodeAndValue
  intro r
  have hcode : (respBits r).extractLsb' 64 2 = codeBits r.code := BitVec.extractLsb'_append_eq_left
  rw [hcode]
  refine ⟨BitVec.extractLsb'_append_eq_right, ?_⟩
  cases r.code <;> decide

/-! ### The assembler and the worked encodings -/

theorem toNat_initHeader (seed : Seed) : (initHeader seed).toNat = 0x1000000000000000 + seed.toNat := by
  rw [initHeader, BitVec.toNat_append, ← Nat.shiftLeft_add_eq_or_of_lt seed.isLt]
  rfl

/-- Settles O32, by the range of the number (`checkSeed`, `toNat_initHeader`). -/
theorem assemblerRefusesWideNumbers : Obligations.AssemblerRefusesWideNumbers := by
  unfold Obligations.AssemblerRefusesWideNumbers
  intro n
  refine ⟨fun hn => ?_, fun hn => ?_, fun hn => if_pos hn, fun hn => if_neg (Nat.not_lt.mpr hn)⟩
  · have hheader : initHeader (BitVec.ofNat 32 n) = BitVec.ofNat 64 (0x1000000000000000 + n) := by
      apply BitVec.eq_of_toNat_eq
      rw [toNat_initHeader, BitVec.toNat_ofNat, BitVec.toNat_ofNat]
      omega
    rw [assembleLine, checkSeed, if_pos hn, Option.map_some, encode, hheader]
  · have hwide : checkSeed n = none := if_neg (Nat.not_lt.mpr hn)
    exact ⟨by rw [assembleLine, hwide, Option.map_none],
      fun e => by rw [assembleLine, hwide, Option.map_none]⟩

/-- Settles O4: the decoder runs on the spec's words. -/
theorem specWordsDecode : Obligations.SpecWordsDecode := by
  unfold Obligations.SpecWordsDecode
  decide

end Sys2Proof.Machine

/-!
PROOFS. The datapath's primitives as natural numbers (40_primitives.md R100 to R105) and the spec's
worked values of the round (R108), the merge (43_digest.md R154) and the avalanche (R161).
-/

namespace Sys2Proof.Machine

/-! ### Rotation -/

theorem toNat_rotl64 (x : Word) (r : Nat) :
    (rotl64 x r).toNat = x.toNat * 2 ^ r % 2 ^ 64 ||| x.toNat / 2 ^ (64 - r) := by
  rw [rotl64, BitVec.toNat_or, BitVec.toNat_shiftLeft, BitVec.toNat_ushiftRight, Nat.shiftLeft_eq,
    Nat.shiftRight_eq_div_pow]

/-- A bit that stays below the top moves up by `r`; one that passes the top comes back at the bottom. -/
theorem getLsbD_rotl64 (x : Word) {r j : Nat} (hr : r < 64) (hj : j < 64) :
    (rotl64 x r).getLsbD ((j + r) % 64) = x.getLsbD j := by
  rw [rotl64_eq_rotateLeft x hr, BitVec.getLsbD_rotateLeft_of_le hr]
  by_cases htop : j + r < 64
  · have hplace : (j + r) % 64 = j + r := Nat.mod_eq_of_lt htop
    simp [hplace, htop]
  · have hplace : (j + r) % 64 = j + r - 64 := by omega
    have hbottom : j + r - 64 < r := by omega
    have hback : 64 - r + (j + r - 64) = j := by omega
    simp [hplace, hbottom, hback]

/-- Settles O57, by the rotation's value (`toNat_rotl64`) and its bits (`getLsbD_rotl64`). -/
theorem rotationWrapsBitsAround : Obligations.RotationWrapsBitsAround := by
  unfold Obligations.RotationWrapsBitsAround
  intro x r _ hr
  exact ⟨toNat_rotl64 x r, fun _ => getLsbD_rotl64 x hr⟩

/-! ### The model's expressions as natural numbers

The constants stay `P1.toNat` to `P5.toNat`; they compute to the spec's decimal values (R34). -/

/-- A sum with the constant written first, as the model does (R100). -/
theorem toNat_const_add (c x : Word) : (c + x).toNat = (x.toNat + c.toNat) % 2 ^ 64 := by
  rw [BitVec.toNat_add, Nat.add_comm]

/-- A product with the constant written first, as the model does (R102). -/
theorem toNat_const_mul (c x : Word) : (c * x).toNat = x.toNat * c.toNat % 2 ^ 64 := by
  rw [BitVec.toNat_mul, Nat.mul_comm]

/-- One mixing step of the avalanche: the shift floors (R105). -/
theorem toNat_xor_ushiftRight (x : Word) (k : Nat) :
    (x ^^^ x >>> k).toNat = x.toNat ^^^ x.toNat / 2 ^ k := by
  rw [BitVec.toNat_xor, BitVec.toNat_ushiftRight, Nat.shiftRight_eq_div_pow]

theorem toNat_zextSeed (seed : Seed) : (zextSeed seed).toNat = seed.toNat :=
  BitVec.toNat_setWidth_of_le (by decide)

theorem toNat_countBytes_totalLength (n : Nat) (h : HashState) :
    (countBytes n h).totalLength.toNat = (h.totalLength.toNat + n) % 2 ^ 64 := by
  rw [countBytes_totalLength, BitVec.toNat_add, zextLen, BitVec.toNat_ofNat, Nat.add_mod_mod]

theorem toNat_initHash_v1 (seed : Seed) :
    (initHash seed).v1.toNat = (seed.toNat + P1.toNat + P2.toNat) % 2 ^ 64 := by
  rw [initHash, toNat_const_add, toNat_zextSeed, BitVec.toNat_add, Nat.add_mod_mod, Nat.add_assoc]

theorem toNat_initHash_v2 (seed : Seed) :
    (initHash seed).v2.toNat = (seed.toNat + P2.toNat) % 2 ^ 64 := by
  rw [initHash, toNat_const_add, toNat_zextSeed]

/-- The difference is taken above zero by one turn of `2 ^ 64` (R101). -/
theorem toNat_initHash_v4 (seed : Seed) :
    (initHash seed).v4.toNat = (2 ^ 64 + seed.toNat - P1.toNat) % 2 ^ 64 := by
  rw [initHash, BitVec.toNat_sub, toNat_zextSeed, Nat.sub_add_comm P1.isLt.le]

theorem toNat_seedStart (h : HashState) :
    (seedStart h).toNat = (h.seed.toNat + P5.toNat) % 2 ^ 64 := by
  rw [seedStart, toNat_const_add, toNat_zextSeed]

theorem toNat_round64 (acc w : Word) :
    (round64 acc w).toNat =
      ((acc.toNat + w.toNat * P2.toNat) % 2 ^ 64 * 2 ^ 31 % 2 ^ 64 |||
        (acc.toNat + w.toNat * P2.toNat) % 2 ^ 64 / 2 ^ 33) * P1.toNat % 2 ^ 64 := by
  rw [round64, toNat_const_mul, toNat_rotl64, BitVec.toNat_add, toNat_const_mul, Nat.add_mod_mod]

theorem toNat_mergeRound (h v : Word) :
    (mergeRound h v).toNat =
      ((h.toNat ^^^ (round64 0 v).toNat) * P1.toNat + P4.toNat) % 2 ^ 64 := by
  rw [mergeRound, toNat_const_add, toNat_const_mul, BitVec.toNat_xor, Nat.mod_add_mod]

theorem toNat_avalanche (h : Word) :
    let a := h.toNat ^^^ h.toNat / 2 ^ 33
    let b := a * P2.toNat % 2 ^ 64
    let c := b ^^^ b / 2 ^ 29
    let d := c * P3.toNat % 2 ^ 64
    (avalanche h).toNat = d ^^^ d / 2 ^ 32 := by
  simp only [avalanche, toNat_xor_ushiftRight, toNat_const_mul]

/-- Settles O56, one lemma for each of the model's definitions. -/
theorem wordArithmeticWraps : Obligations.WordArithmeticWraps := by
  unfold Obligations.WordArithmeticWraps
  exact ⟨toNat_countBytes_totalLength,
    fun seed => ⟨toNat_initHash_v1 seed, toNat_initHash_v2 seed, toNat_zextSeed seed,
      toNat_initHash_v4 seed⟩,
    toNat_seedStart, toNat_round64, toNat_mergeRound, toNat_avalanche⟩

/-! ### Worked values -/

/-- Settles O25: the three mixers run on the spec's operands. -/
theorem mixersGiveTheSpecValues : Obligations.MixersGiveTheSpecValues := by
  unfold Obligations.MixersGiveTheSpecValues
  decide

end Sys2Proof.Machine

/-!
PROOFS. INIT, the post-init state and the command that alone is accepted uninitialised (41_init.md
R121 to R123).
-/

namespace Sys2Proof.Machine

/-! ### The post-init fields -/

/-- The post-init fields, each sum in the order of its formula in R121. -/
theorem initHash_eq (seed : Seed) :
    initHash seed =
      { seed := seed, v1 := zextSeed seed + P1 + P2, v2 := zextSeed seed + P2, v3 := zextSeed seed
        v4 := zextSeed seed - P1, totalLength := 0, buf := [], pendingCount := 0 } := by
  rw [initHash, BitVec.add_comm (P1 + P2), ← BitVec.add_assoc, BitVec.add_comm P2]

/-- Settles O13: INIT and DIGEST both leave `initHash` of their seed (`initHash_eq`). -/
theorem initWritesThePostInitState : Obligations.InitWritesThePostInitState := by
  unfold Obligations.InitWritesThePostInitState
  refine ⟨fun seed s => ?_, fun s hi hroom => ?_⟩
  · rw [exec_init, initHash_eq]
    rfl
  · exact ⟨_, (exec_digest_ready hi).trans (respond_of_room hroom _ _ _), hi, initHash_eq _⟩

theorem exec_init_lanes {seed : Seed} {v1 v2 v3 v4 : Word} (s : State)
    (h : (initHash seed).v1 = v1 ∧ (initHash seed).v2 = v2 ∧ (initHash seed).v3 = v3 ∧
      (initHash seed).v4 = v4) :
    ∃ t, exec (.init seed) s = .next t ∧
      t.hash.v1 = v1 ∧ t.hash.v2 = v2 ∧ t.hash.v3 = v3 ∧ t.hash.v4 = v4 :=
  ⟨_, exec_init seed s, h⟩

/-- Settles O15: the lanes do not depend on the state (`exec_init_lanes`), and the formulas run on the
four seeds. -/
theorem initLaneTable : Obligations.InitLaneTable := by
  unfold Obligations.InitLaneTable
  exact fun s => ⟨exec_init_lanes s (by decide), exec_init_lanes s (by decide),
    exec_init_lanes s (by decide), exec_init_lanes s (by decide)⟩

/-! ### Commands of an uninitialised engine -/

/-- An uninitialised engine refuses every command but INIT (60_exceptions.md R203). -/
theorem exec_of_uninitialised_of_not_init {i : Instr} {s : State} (hi : s.initialised = false)
    (hroom : s.respQ.length < Config.respDepth) (hne : ¬ ∃ seed, i = .init seed) :
    ∃ w, exec i s = .next (s.endCommand.emit .errNotInitialised w) := by
  cases i with
  | init seed => exact absurd ⟨seed, rfl⟩ hne
  | update hdr b => exact ⟨hdr, (exec_update_notReady hi hdr b).trans (raise_of_room hroom _ _)⟩
  | digest => exact ⟨digestHeader, (exec_digest_notReady hi).trans (raise_of_room hroom _ _)⟩

/-- Settles O14: INIT's effect is unconditional (`exec_init`) and appends no record, and every other
command appends the error's (`exec_of_uninitialised_of_not_init`). -/
theorem initIsAcceptedInEveryState : Obligations.InitIsAcceptedInEveryState := by
  unfold Obligations.InitIsAcceptedInEveryState
  refine ⟨fun seed s s' => ⟨_, _, exec_init seed s, exec_init seed s', rfl, rfl, rfl⟩,
    fun i s hi hroom => ?_⟩
  by_cases hinit : ∃ seed, i = .init seed
  · obtain ⟨seed, rfl⟩ := hinit
    have hsilent : ∀ v, s.respQ ≠ s.respQ ++ [{ code := .errNotInitialised, value := v }] :=
      fun v => by simp
    exact ⟨_, exec_init seed s, iff_of_true hsilent ⟨seed, rfl⟩⟩
  · obtain ⟨w, hw⟩ := exec_of_uninitialised_of_not_init hi hroom hinit
    exact ⟨_, hw, iff_of_false (fun hsilent => hsilent w rfl) hinit⟩

end Sys2Proof.Machine

/-!
PROOFS. UPDATE: its blocks in order, the law of concatenation, the short path, the empty chunk, and the
block mixer (42_update.md R131 to R141).
-/

namespace Sys2Proof.Machine

/-! ### Whole blocks by their position -/

/-- Mix the first `k` blocks of `data` in order, block `j` being bytes `32j` to `32j+31` (R140). -/
def mixBlocks (data : List Byte) (k : Nat) (h : HashState) : HashState :=
  (List.range k).foldl (fun h j => blockMix ((data.drop (32 * j)).take 32) h) h

@[simp] theorem mixBlocks_zero (data : List Byte) (h : HashState) : mixBlocks data 0 h = h := rfl

/-- Block `j + 1` of the data is block `j` of what stands behind the first block. -/
theorem mixBlocks_succ (data : List Byte) (k : Nat) (h : HashState) :
    mixBlocks data (k + 1) h = mixBlocks (data.drop 32) k (blockMix (data.take 32) h) := by
  simp only [mixBlocks, List.range_succ_eq_map, List.foldl_cons, List.foldl_map, Nat.mul_zero,
    List.drop_zero, List.drop_drop, Nat.mul_succ, Nat.add_comm 32]

@[simp] theorem mixBlocks_totalLength (data : List Byte) (k : Nat) (h : HashState) :
    (mixBlocks data k h).totalLength = h.totalLength := by
  induction k generalizing data h with
  | zero => rfl
  | succ k ih => rw [mixBlocks_succ, ih, blockMix_totalLength]

theorem absorb_eq_mixBlocks (r : List Byte) (h : HashState) :
    absorb r h = tailStore (mixBlocks r (r.length / 32) h, r.drop (32 * (r.length / 32))) := by
  induction r, h using absorb.induct with
  | case1 r h hr ih =>
    have hcount : r.length / 32 = (r.drop 32).length / 32 + 1 := by
      rw [List.length_drop]
      omega
    rw [absorb_of_block hr, ih, hcount, mixBlocks_succ, List.drop_drop, Nat.mul_succ,
      Nat.add_comm 32]
  | case2 r h hr =>
    have hcount : r.length / 32 = 0 := Nat.div_eq_of_lt (Nat.not_le.mp hr)
    rw [absorb_of_short (Nat.not_le.mp hr), hcount]
    rfl

theorem updateHash_eq_mixBlocks {h : HashState} (hs : h.Sized) (b : List Byte) :
    updateHash b h =
      { mixBlocks (h.buf ++ b) ((h.pendingCount.toNat + b.length) / 32) h with
        totalLength := h.totalLength + BitVec.ofNat 64 b.length
        buf := (h.buf ++ b).drop (32 * ((h.pendingCount.toNat + b.length) / 32))
        pendingCount := BitVec.ofNat 5 ((h.pendingCount.toNat + b.length) % 32) } := by
  have hb : h.buf.length = h.pendingCount.toNat := hs
  have hdata : (h.buf ++ b).length = h.pendingCount.toNat + b.length := by
    rw [List.length_append, hb]
  have hrest : ((h.buf ++ b).drop (32 * ((h.pendingCount.toNat + b.length) / 32))).length =
      (h.pendingCount.toNat + b.length) % 32 := by
    rw [List.length_drop, hdata]
    omega
  rw [updateHash_eq_absorb hs, absorb_countBytes, absorb_eq_mixBlocks, hdata, countBytes, tailStore,
    mixBlocks_totalLength, hrest, zextLen]

/-- Settles O16, by the hashing fields of an UPDATE in closed form (`updateHash_eq_mixBlocks`). -/
theorem updateMixesWholeBlocksInOrder : Obligations.UpdateMixesWholeBlocksInOrder := by
  unfold Obligations.UpdateMixesWholeBlocksInOrder
  intro hdr b s hi hs
  rw [exec_update_ready hi, updateHash_eq_mixBlocks hs]
  rfl

/-! ### Chunks in a row, the short path and the empty chunk -/

/-- Settles O19: `updateHash_append` for two commands, `foldl_updateHash` for any number of chunks. -/
theorem updatesConcatenate : Obligations.UpdatesConcatenate := by
  unfold Obligations.UpdatesConcatenate
  refine ⟨fun ha hc hac a c s hi hs => ?_, fun chunks h hs => foldl_updateHash hs chunks⟩
  have hi' : (s.endCommand.setHash (updateHash a s.hash)).initialised = true := hi
  refine ⟨_, _, _, exec_update_ready hi ha a, exec_update_ready hi' hc c,
    exec_update_ready hi hac (a ++ c), ?_, rfl, rfl⟩
  simp only [State.setHash_hash, updateHash_append hs]

/-- Settles O18: below 32 bytes the command is `shortPath`, whose pending count does not wrap. -/
theorem shortUpdateOnlyBuffers : Obligations.ShortUpdateOnlyBuffers := by
  unfold Obligations.ShortUpdateOnlyBuffers
  intro hdr b s hi hb hl
  have hcount : (shortPath b (countBytes b.length s.hash)).pendingCount.toNat =
      s.hash.pendingCount.toNat + b.length := by
    rw [shortPath_pendingCount, countBytes_pendingCount, Nat.mod_eq_of_lt hl]
  refine ⟨_, exec_update_ready hi hdr b, ?_⟩
  rw [updateHash_short hb hl]
  exact ⟨rfl, hcount, rfl, rfl, rfl, rfl, rfl, rfl, rfl⟩

/-- Settles O17, by `updateHash_nil`. -/
theorem emptyUpdateChangesNothing : Obligations.EmptyUpdateChangesNothing := by
  unfold Obligations.EmptyUpdateChangesNothing
  refine fun hdr s => ⟨rfl, fun hi => ?_⟩
  rw [exec_update_ready hi, updateHash_nil]
  rfl

/-! ### The block mixer -/

/-- One more byte at the low end. -/
theorem toNat_append_byte {n : Nat} (x : BitVec n) (c : Byte) :
    (x ++ c).toNat = x.toNat * 2 ^ 8 + c.toNat := by
  rw [BitVec.toNat_append, ← Nat.shiftLeft_add_eq_or_of_lt c.isLt, Nat.shiftLeft_eq]

theorem toNat_append_eight_bytes (f : Nat → Byte) :
    (f 7 ++ f 6 ++ f 5 ++ f 4 ++ f 3 ++ f 2 ++ f 1 ++ f 0).toNat =
      ((List.range 8).map fun k => (f k).toNat * 2 ^ (8 * k)).sum := by
  simp only [toNat_append_byte, List.range_succ, List.range_zero, List.map_append, List.map_nil,
    List.map_cons, List.sum_append, List.sum_cons, List.sum_nil]
  omega

/-- A little-endian word is its eight bytes, the last of the stream at the top (R107). -/
theorem readLE_eight_eq_append (b : List Byte) (off : Nat) :
    readLE b off 8 =
      b.getD (off + 7) 0 ++ b.getD (off + 6) 0 ++ b.getD (off + 5) 0 ++ b.getD (off + 4) 0 ++
      b.getD (off + 3) 0 ++ b.getD (off + 2) 0 ++ b.getD (off + 1) 0 ++ b.getD off 0 :=
  BitVec.eq_of_toNat_eq ((toNat_readLE b off le_rfl).trans
    (toNat_append_eight_bytes fun k => b.getD (off + k) 0).symm)

/-- The round in the order of its formula (40_primitives.md R108), with the library's rotation and the
primes' values. -/
theorem round64_eq_rotateLeft (acc w : Word) :
    round64 acc w =
      (acc + w * 0xC2B2AE3D27D4EB4F#64).rotateLeft 31 * 0x9E3779B185EBCA87#64 := by
  rw [round64, rotl64_eq_rotateLeft _ (by decide), BitVec.mul_comm P1, BitVec.mul_comm P2, P1, P2]

/-- Settles O20: each lane takes the round of its word (`round64_eq_rotateLeft`), whose bytes are
those of the block (`readLE_eight_eq_append`); and the mixer run on the spec's block. -/
theorem blockMixRoundsEachLane : Obligations.BlockMixRoundsEachLane := by
  unfold Obligations.BlockMixRoundsEachLane
  refine ⟨fun blk h _ => ?_, by decide⟩
  simp only [← round64_eq_rotateLeft, ← readLE_eight_eq_append]
  rfl

end Sys2Proof.Machine

/-!
PROOFS. DIGEST: its answer and re-initialisation, the tail phases, the second DIGEST, and what it does
not read (43_digest.md R150 to R165).
-/

namespace Sys2Proof.Machine

/-! ### The command -/

theorem exec_digest_of_room {s : State} (hi : s.initialised = true)
    (hroom : s.respQ.length < Config.respDepth) :
    exec .digest s = .next
      ((s.setHash (initHash s.hash.seed)).endCommand.emit .digestOk (digestValue s.hash)) :=
  (exec_digest_ready hi).trans (respond_of_room hroom _ _ _)

/-! ### The mixers in the order of their formulas

With the library's rotation and the primes' values, as in `round64_eq_rotateLeft`. -/

theorem round64_zero_eq_rotateLeft (w : Word) :
    round64 0 w = (w * 0xC2B2AE3D27D4EB4F#64).rotateLeft 31 * 0x9E3779B185EBCA87#64 := by
  rw [round64_eq_rotateLeft, zero_add]

theorem mergeRound_eq_rotateLeft (h v : Word) :
    mergeRound h v =
      (h ^^^ ((v * 0xC2B2AE3D27D4EB4F#64).rotateLeft 31 * 0x9E3779B185EBCA87#64)) *
        0x9E3779B185EBCA87#64 + 0x85EBCA77C2B2AE63#64 := by
  rw [mergeRound, round64_zero_eq_rotateLeft, BitVec.add_comm P4, BitVec.mul_comm P1, P4, P1]

theorem combineLanes_eq_rotateLeft (h : HashState) :
    combineLanes h = mergeRound (mergeRound (mergeRound (mergeRound
      (h.v1.rotateLeft 1 + h.v2.rotateLeft 7 + h.v3.rotateLeft 12 + h.v4.rotateLeft 18)
      h.v1) h.v2) h.v3) h.v4 := by
  rw [combineLanes, rotl64_eq_rotateLeft _ (by decide), rotl64_eq_rotateLeft _ (by decide),
    rotl64_eq_rotateLeft _ (by decide), rotl64_eq_rotateLeft _ (by decide)]

theorem seedStart_eq (h : HashState) :
    seedStart h = h.seed.zeroExtend 64 + 0x27D4EB2F165667C5#64 := by
  rw [seedStart, BitVec.add_comm, P5, zextSeed]

theorem startValue_eq_ite (h : HashState) :
    startValue h = if h.totalLength.toNat < 32 then seedStart h else combineLanes h := by
  split
  · exact startValue_short ‹_›
  · exact startValue_long (Nat.not_lt.mp ‹_›)

theorem avalanche_eq (h : Word) :
    avalanche h =
      let h1 := (h ^^^ (h >>> 33)) * 0xC2B2AE3D27D4EB4F#64
      let h2 := (h1 ^^^ (h1 >>> 29)) * 0x165667B19E3779F9#64
      h2 ^^^ (h2 >>> 32) := by
  simp only [avalanche]
  rw [BitVec.mul_comm P2, BitVec.mul_comm P3, P2, P3]

/-- Settles O23: `exec_digest_of_room`, with the answer's steps in the order of their formulas. -/
theorem digestAnswersAndReinitialises : Obligations.DigestAnswersAndReinitialises := by
  unfold Obligations.DigestAnswersAndReinitialises
  intro s hi hroom
  simp only [← mergeRound_eq_rotateLeft, ← combineLanes_eq_rotateLeft, ← seedStart_eq,
    ← startValue_eq_ite, ← avalanche_eq]
  exact exec_digest_of_room hi hroom

/-! ### One turn of the tail -/

/-- Phase 1 only shortens the tail. -/
theorem tailPhase8_rest_length_le (k : Nat) (p : Word × List Byte) :
    (tailPhase8 k p).2.length ≤ p.2.length := by
  induction k generalizing p with
  | zero => exact le_rfl
  | succ k ih =>
    by_cases hp : 8 ≤ p.2.length
    · rw [tailPhase8_turn hp]
      exact (ih _).trans (List.drop_sublist 8 p.2).length_le
    · rw [tailPhase8_stop (Nat.not_le.mp hp)]

/-- Phase 2 only shortens the tail. -/
theorem tailPhase4_rest_length_le (p : Word × List Byte) :
    (tailPhase4 p).2.length ≤ p.2.length := by
  by_cases hp : 4 ≤ p.2.length
  · rw [tailPhase4_once hp]
    exact (List.drop_sublist 4 p.2).length_le
  · rw [tailPhase4_skip (Nat.not_le.mp hp)]

/-- The bound on the turns of phase 1 does not matter once it is at least the tail's length. -/
theorem tailPhase8_bound_irrelevant {j k : Nat} {p : Word × List Byte} (hj : p.2.length ≤ j)
    (hk : p.2.length ≤ k) : tailPhase8 j p = tailPhase8 k p := by
  induction j generalizing k p with
  | zero => rw [tailPhase8_stop (by omega), tailPhase8_stop (by omega)]
  | succ j ih =>
    by_cases hp : 8 ≤ p.2.length
    · obtain ⟨k, rfl⟩ := Nat.exists_eq_add_one_of_ne_zero (n := k) (by omega)
      rw [tailPhase8_turn hp, tailPhase8_turn hp]
      exact ih (by simp only [List.length_drop]; omega) (by simp only [List.length_drop]; omega)
    · rw [tailPhase8_stop (Nat.not_le.mp hp), tailPhase8_stop (Nat.not_le.mp hp)]

/-- The bound on the turns of phase 3 does not matter once it is at least the tail's length. -/
theorem tailPhase1_bound_irrelevant {j k : Nat} {p : Word × List Byte} (hj : p.2.length ≤ j)
    (hk : p.2.length ≤ k) : tailPhase1 j p = tailPhase1 k p := by
  induction j generalizing k p with
  | zero => rw [tailPhase1_stop (by omega), tailPhase1_stop (by omega)]
  | succ j ih =>
    by_cases hp : 1 ≤ p.2.length
    · obtain ⟨k, rfl⟩ := Nat.exists_eq_add_one_of_ne_zero (n := k) (by omega)
      rw [tailPhase1_turn hp, tailPhase1_turn hp]
      exact ih (by simp only [List.length_drop]; omega) (by simp only [List.length_drop]; omega)
    · rw [tailPhase1_stop (by omega), tailPhase1_stop (by omega)]

/-- Tail mixing with any bounds on the turns of its loops that are at least the tail's length. -/
theorem tailMix_eq_of_bounds {j k : Nat} {r : List Byte} (hj : r.length ≤ j) (hk : r.length ≤ k)
    (h : Word) : tailMix h r = (tailPhase1 k (tailPhase4 (tailPhase8 j (h, r)))).1 := by
  have hrest : (tailPhase4 (tailPhase8 j (h, r))).2.length ≤ r.length :=
    (tailPhase4_rest_length_le _).trans (tailPhase8_rest_length_le _ _)
  rw [tailMix, tailPhase8_bound_irrelevant (p := (h, r)) le_rfl hj,
    tailPhase1_bound_irrelevant hrest (hrest.trans hk)]

theorem tailMix_of_lt_eight {k : Nat} {r : List Byte} (hr : r.length < 8) (hk : r.length ≤ k)
    (h : Word) : tailMix h r = (tailPhase1 k (tailPhase4 (h, r))).1 := by
  rw [tailMix_eq_of_bounds le_rfl hk, tailPhase8_stop hr]

theorem tailMix_of_lt_four {k : Nat} {r : List Byte} (hr : r.length < 4) (hk : r.length ≤ k)
    (h : Word) : tailMix h r = (tailPhase1 k (h, r)).1 := by
  rw [tailMix_of_lt_eight (by omega) hk, tailPhase4_skip hr]

theorem tailMix_nil (h : Word) : tailMix h [] = h := rfl

theorem tailMix_of_eight_le {r : List Byte} (hr : 8 ≤ r.length) (h : Word) :
    tailMix h r = tailMix (mixTail8 h r) (r.drop 8) := by
  have hdrop : (r.drop 8).length ≤ r.length := (List.drop_sublist 8 r).length_le
  rw [tailMix_eq_of_bounds (Nat.le_succ _) le_rfl, tailPhase8_turn hr,
    ← tailMix_eq_of_bounds hdrop hdrop]

theorem tailMix_of_four_le {r : List Byte} (h4 : 4 ≤ r.length) (h8 : r.length < 8) (h : Word) :
    tailMix h r = tailMix (mixTail4 h r) (r.drop 4) := by
  have hdrop : (r.drop 4).length = r.length - 4 := List.length_drop
  rw [tailMix_of_lt_eight h8 le_rfl, tailPhase4_once h4,
    tailMix_of_lt_four (k := r.length) (by omega) (by omega)]

theorem tailMix_of_one_le {r : List Byte} (h1 : 1 ≤ r.length) (h4 : r.length < 4) (h : Word) :
    tailMix h r = tailMix (mixTail1 h r) (r.drop 1) := by
  have hdrop : (r.drop 1).length = r.length - 1 := List.length_drop
  rw [tailMix_of_lt_four h4 (Nat.le_succ _), tailPhase1_turn h1,
    tailMix_of_lt_four (k := r.length) (by omega) (by omega)]

/-! ### The tail's formulas -/

/-- A little-endian word as the running sum of its bytes, each times its power of two (R107). -/
theorem readLE_eq_foldl (b : List Byte) (n : Nat) :
    readLE b 0 n = (List.range n).foldl
      (fun a k => a + (b.getD k 0).zeroExtend 64 * BitVec.twoPow 64 (8 * k)) 0 := by
  induction n with
  | zero => rfl
  | succ k ih =>
    rw [readLE, ih, List.range_succ, List.foldl_append, List.foldl_cons, List.foldl_nil,
      BitVec.mul_twoPow_eq_shiftLeft, Nat.zero_add, zextByte]

theorem mixTail8_eq_rotateLeft (h : Word) (r : List Byte) :
    mixTail8 h r =
      (h ^^^ ((readLE r 0 8 * 0xC2B2AE3D27D4EB4F#64).rotateLeft 31 * 0x9E3779B185EBCA87#64)
        ).rotateLeft 27 * 0x9E3779B185EBCA87#64 + 0x85EBCA77C2B2AE63#64 := by
  rw [mixTail8, rotl64_eq_rotateLeft _ (by decide), round64_zero_eq_rotateLeft,
    BitVec.add_comm P4, BitVec.mul_comm P1, P4, P1]

theorem mixTail4_eq_rotateLeft (h : Word) (r : List Byte) :
    mixTail4 h r =
      (h ^^^ (readLE r 0 4 * 0x9E3779B185EBCA87#64)).rotateLeft 23
        * 0xC2B2AE3D27D4EB4F#64 + 0x165667B19E3779F9#64 := by
  rw [mixTail4, rotl64_eq_rotateLeft _ (by decide), BitVec.add_comm P3, BitVec.mul_comm P2,
    BitVec.mul_comm P1, P3, P2, P1]

theorem mixTail1_eq_rotateLeft (h : Word) (r : List Byte) :
    mixTail1 h r =
      (h ^^^ (readLE r 0 1 * 0x27D4EB2F165667C5#64)).rotateLeft 11 * 0x9E3779B185EBCA87#64 := by
  rw [mixTail1, rotl64_eq_rotateLeft _ (by decide), BitVec.mul_comm P1, BitVec.mul_comm P5, P1, P5]

/-- Settles O24: each phase takes its turn (`tailMix_of_eight_le`, `tailMix_of_four_le`,
`tailMix_of_one_le`), whose word is the sum of its bytes (`readLE_eq_foldl`). -/
theorem tailMixConsumesLeftToRight : Obligations.TailMixConsumesLeftToRight := by
  unfold Obligations.TailMixConsumesLeftToRight
  intro h r
  simp only [← readLE_eq_foldl, ← mixTail8_eq_rotateLeft, ← mixTail4_eq_rotateLeft,
    ← mixTail1_eq_rotateLeft]
  exact ⟨fun hr => hr ▸ tailMix_nil h, fun h8 => tailMix_of_eight_le h8 h,
    fun h4 h8 => tailMix_of_four_le h4 h8 h, fun h1 h4 => tailMix_of_one_le h1 h4 h⟩

/-! ### The second DIGEST -/

theorem digestValue_initHash (seed : Seed) : digestValue (initHash seed) = hashOf [] seed := by
  rw [hashOf, updateHash_nil]

/-- The digest of the empty input under seed 0 (R165). -/
theorem hashOf_nil_zero : hashOf [] 0 = 0xEF46DB3751D8E999#64 := by decide

/-- Settles O26: the first DIGEST leaves the post-init fields, and the second answers their digest
(`digestValue_initHash`). -/
theorem secondDigestIsOfTheEmptyInput : Obligations.SecondDigestIsOfTheEmptyInput := by
  unfold Obligations.SecondDigestIsOfTheEmptyInput
  intro s q hi hroom hq
  refine ⟨_, _, exec_digest_of_room hi hroom, exec_digest_of_room hi hq, ?_, rfl,
    fun hseed => hseed ▸ hashOf_nil_zero⟩
  rw [← digestValue_initHash]
  rfl

/-! ### What DIGEST does not read -/

/-- The lanes are read on the long branch alone (R164). -/
theorem startValue_congr {h h' : HashState} (hseed : h.seed = h'.seed)
    (hlen : h.totalLength = h'.totalLength)
    (hlanes : h.totalLength.toNat < 32 ∨
      (h.v1 = h'.v1 ∧ h.v2 = h'.v2 ∧ h.v3 = h'.v3 ∧ h.v4 = h'.v4)) :
    startValue h = startValue h' := by
  by_cases hshort : h.totalLength.toNat < 32
  · rw [startValue_short hshort, startValue_short (hlen ▸ hshort), seedStart, seedStart, hseed]
  · obtain ⟨h1, h2, h3, h4⟩ := hlanes.resolve_left hshort
    have hlong : 32 ≤ h.totalLength.toNat := Nat.not_lt.mp hshort
    rw [startValue_long hlong, startValue_long (hlen ▸ hlong), combineLanes, combineLanes,
      h1, h2, h3, h4]

/-- Settles O27: what the two read agrees (`startValue_congr`), so their answers do. -/
theorem digestDoesNotReadLanesWhenShort : Obligations.DigestDoesNotReadLanesWhenShort := by
  unfold Obligations.DigestDoesNotReadLanesWhenShort
  intro s s' hi hi' hq hroom hseed hlen hbuf hlanes
  have hvalue : digestValue s'.hash = digestValue s.hash := by
    rw [digestValue, digestValue, startValue_congr hseed hlen hlanes, hlen, hbuf]
  refine ⟨_, _, _, exec_digest_of_room hi hroom, exec_digest_of_room hi' (hq ▸ hroom), rfl, ?_, ?_⟩
  · simp [hq, hvalue]
  · simp [hseed]

end Sys2Proof.Machine

/-!
PROOFS. The one-shot hash: the words of HASH, chunk invariance, the engine used again after a DIGEST, and
where mixing starts (44_oneshot.md R180 to R186).
-/

namespace Sys2Proof.Machine

/-! ### Programs on the machine -/

/-- With the host at rest, the words of a program run its commands, and what stands behind them stays. -/
theorem runFor_programWords {is : List Instr} {s : State} {e : EngineCore}
    (hw : ∀ i ∈ is, i.wellFormed = true) (hhost : s.host = []) (hseq : s.seq = .idle)
    (hrun : is.foldlM EngineCore.runCommand s.engine = some e) (rest : List Word) :
    runFor (programWords is).length { s with cmdIn := programWords is ++ rest } =
      .next (e.withPorts rest [] s.taken) := by
  have hall : s.engine.acceptAll (programWords is) = some e :=
    (EngineCore.acceptAll_programWords hw hseq).trans hrun
  have hs : { s with cmdIn := programWords is ++ rest } =
      s.engine.withPorts (programWords is ++ rest) [] s.taken := by
    rw [← hhost]
    rfl
  rw [hs]
  exact runFor_of_acceptAll hall rest s.taken

/-- Settles O29: the words of HASH do to `S` what HASH does
(`EngineCore.foldlM_runCommand_expandHash`). -/
theorem hashAnswersTheOneShotHash : Obligations.HashAnswersTheOneShotHash := by
  unfold Obligations.HashAnswersTheOneShotHash
  intro b seed s rest hhost hseq hroom ws
  have hrun := EngineCore.foldlM_runCommand_expandHash (e := s.engine) hroom b seed
  rw [runFor_programWords (fun _ => expandHash_wellFormed) hhost hseq hrun rest, hhost, hseq]
  rfl

/-! ### Chunk invariance -/

theorem streamProgram_wellFormed {seed : Seed} {chunks : List (List Byte)}
    (hchunks : ∀ c ∈ chunks, c.length < 2 ^ 60) {i : Instr} (hi : i ∈ streamProgram seed chunks) :
    i.wellFormed = true := by
  rcases List.mem_cons.mp hi with rfl | hi
  · rfl
  · rcases List.mem_append.mp hi with hi | hi
    · obtain ⟨c, hc, rfl⟩ := List.mem_map.mp hi
      exact mkUpdate_wellFormed (hchunks c hc)
    · rw [List.mem_singleton.mp hi]
      rfl

/-- HASH is the stream program of the pieces its input is split into (30_encoding.md R88). -/
theorem expandHash_eq_streamProgram (b : List Byte) (seed : Seed) :
    expandHash b seed = streamProgram seed (splitChunks b) := rfl

/-- Whatever the chunks, the final DIGEST meets the state of one UPDATE of all the bytes. -/
theorem EngineCore.foldlM_runCommand_streamProgram (e : EngineCore) (seed : Seed)
    (chunks : List (List Byte)) :
    (streamProgram seed chunks).foldlM EngineCore.runCommand e =
      EngineCore.runCommand
        { e with
          initialised := true
          hash := updateHash chunks.flatten (initHash seed)
          seq := .idle } .digest := by
  have hsized : (initHash seed).Sized := rfl
  have hinit : e.runCommand (.init seed) =
      some { e with initialised := true, hash := initHash seed, seq := .idle } := rfl
  rw [streamProgram, List.foldlM_cons, hinit, Option.bind_eq_bind, Option.bind_some,
    List.foldlM_append, foldlM_runCommand_mkUpdate rfl rfl, Option.bind_eq_bind, Option.bind_some,
    foldl_updateHash hsized, List.foldlM_cons]
  exact Option.bind_fun_some _

/-- A stream program does what HASH of its whole input does. -/
theorem EngineCore.foldlM_runCommand_streamProgram_eq_expandHash (e : EngineCore) (seed : Seed)
    (chunks : List (List Byte)) :
    (streamProgram seed chunks).foldlM EngineCore.runCommand e =
      (expandHash chunks.flatten seed).foldlM EngineCore.runCommand e := by
  rw [expandHash_eq_streamProgram, foldlM_runCommand_streamProgram,
    foldlM_runCommand_streamProgram, splitChunks_flatten]

/-- Settles O30: the stream's commands and HASH's do the same to `S`
(`EngineCore.foldlM_runCommand_streamProgram_eq_expandHash`), and so do their words. -/
theorem chunkingDoesNotChangeTheDigest : Obligations.ChunkingDoesNotChangeTheDigest := by
  unfold Obligations.ChunkingDoesNotChangeTheDigest
  intro seed chunks s hchunks hhost hseq hroom streamed oneShot
  have hhash := EngineCore.foldlM_runCommand_expandHash (e := s.engine) hroom chunks.flatten seed
  have hstream := (s.engine.foldlM_runCommand_streamProgram_eq_expandHash seed chunks).trans hhash
  have hrunStream := runFor_programWords (fun _ => streamProgram_wellFormed hchunks) hhost hseq
    hstream []
  have hrunHash := runFor_programWords (fun _ => expandHash_wellFormed) hhost hseq hhash []
  rw [List.append_nil] at hrunStream hrunHash
  exact ⟨_, hrunStream, hrunHash, rfl⟩

/-! ### After a DIGEST -/

/-- Settles O28: the DIGEST leaves `initHash` of its seed, from which UPDATE and DIGEST are `hashOf`. -/
theorem reuseAfterDigestHashesAfresh : Obligations.ReuseAfterDigestHashesAfresh := by
  unfold Obligations.ReuseAfterDigestHashesAfresh
  intro hdr b s q hi hroom hq
  refine ⟨_, _, _, exec_digest_of_room hi hroom, exec_update_ready ?_ hdr b,
    exec_digest_of_room ?_ ?_, rfl⟩
  exacts [hi, hi, hq]

/-! ### Where mixing starts -/

/-- Settles O22: while fewer than 32 bytes have come they are all pending, so the number of whole blocks
in `updateHash_eq_mixBlocks` is 0 below 32 and 1 below 64. -/
theorem lanesUntouchedBelow32Bytes : Obligations.LanesUntouchedBelow32Bytes := by
  unfold Obligations.LanesUntouchedBelow32Bytes
  intro hdr b s hi
  refine ⟨_, exec_update_ready hi hdr b, rfl, fun hs hcounted hfew => ?_⟩
  have hpending : s.hash.pendingCount.toNat = s.hash.totalLength.toNat :=
    hcounted.trans (Nat.mod_eq_of_lt hfew)
  rw [State.setHash_hash, updateHash_eq_mixBlocks hs, hpending]
  refine ⟨fun hbelow => ?_, fun hcross hone => ?_⟩
  · have hblocks : (s.hash.totalLength.toNat + b.length) / 32 = 0 := Nat.div_eq_of_lt hbelow
    rw [hblocks, mixBlocks_zero]
    exact ⟨rfl, rfl, rfl, rfl⟩
  · have hblocks : (s.hash.totalLength.toNat + b.length) / 32 = 1 := by omega
    rw [hblocks, mixBlocks_succ, mixBlocks_zero]
    exact ⟨rfl, rfl, rfl, rfl⟩

end Sys2Proof.Machine

/-!
PROOFS. What an error does, which error a header reports, and that no step stops the machine
(60_exceptions.md R203 to R205, R215).
-/

namespace Sys2Proof.Machine

/-- Settles O54, with room (`raise_of_room`) and without (`respond_of_full`). -/
theorem raiseOnlyAppendsItsRecord : Obligations.RaiseOnlyAppendsItsRecord := by
  unfold Obligations.RaiseOnlyAppendsItsRecord
  exact fun c v s => ⟨fun hroom => raise_of_room hroom c v, fun hfull => respond_of_full hfull c v s⟩

/-- Settles O38, by `step_answers_next` and `engineStep_of_empty`. -/
theorem everyStepAnswersANextState : Obligations.EveryStepAnswersANextState := by
  unfold Obligations.EveryStepAnswersANextState
  exact ⟨step_answers_next, fun s hh hc => (step_of_quiet hh).trans (engineStep_of_empty hc)⟩

/-! ### An uninitialised engine -/

theorem exec_update_of_uninitialised {s : State} (hi : s.initialised = false)
    (hroom : s.respQ.length < Config.respDepth) (hdr : Word) (b : List Byte) :
    exec (.update hdr b) s = .next (s.endCommand.emit .errNotInitialised hdr) :=
  (exec_update_notReady hi hdr b).trans (raise_of_room hroom _ _)

theorem exec_digest_of_uninitialised {s : State} (hi : s.initialised = false)
    (hroom : s.respQ.length < Config.respDepth) :
    exec .digest s = .next (s.endCommand.emit .errNotInitialised digestHeader) :=
  (exec_digest_notReady hi).trans (raise_of_room hroom _ _)

/-- An UPDATE's header and all of its beats, whatever their padding, run it (R73, R85). -/
theorem EngineCore.acceptAll_of_whole_update {e : EngineCore} {hdr : Word} {ws : List Word}
    (hseq : e.seq = .idle) (ho : opcodeOf hdr = 0b0010#4)
    (hlen : ws.length = beatCount (lenOf hdr).toNat) :
    e.acceptAll (hdr :: ws) = e.update hdr ((ws.flatMap beatBytes).take (lenOf hdr).toNat) := by
  rw [beatCount] at hlen
  cases ws with
  | nil =>
    have hzero : (lenOf hdr).toNat = 0 := by
      rw [List.length_nil] at hlen
      omega
    rw [acceptAll_singleton, hzero]
    simp only [accept, hseq, decodeHeader_of_update ho, hzero, if_true]
    rfl
  | cons w ws =>
    have hpos : (lenOf hdr).toNat ≠ 0 := by
      rw [List.length_cons] at hlen
      omega
    have hopen : e.accept hdr = some { e with seq := .collect hdr (ws.length + 1) [] } := by
      simp only [accept, hseq, decodeHeader_of_update ho, if_neg hpos, beatCount, ← hlen,
        List.length_cons]
    rw [acceptAll_cons, hopen, Option.bind_some, acceptAll_beats rfl, List.nil_append]
    rfl

/-- Settles O34: a command's last word reports the error, and of an UPDATE that is the word that
completes its payload (`EngineCore.acceptAll_of_whole_update`). -/
theorem uninitialisedCommandIsReported : Obligations.UninitialisedCommandIsReported := by
  unfold Obligations.UninitialisedCommandIsReported
  intro s hi hroom reported
  refine ⟨exec_update_of_uninitialised hi hroom, exec_digest_of_uninitialised hi hroom,
    fun seed => ⟨_, exec_init seed s, rfl⟩, fun hdr ws rest hh hseq hc ho hlen => ?_⟩
  have hs : s = s.engine.withPorts (hdr :: ws ++ rest) [] s.taken := by
    rw [← hc, ← hh, State.engine_withPorts]
  have hall := (EngineCore.acceptAll_of_whole_update (e := s.engine) hseq ho hlen).trans
    ((EngineCore.update_of_uninitialised hi _ _).trans (EngineCore.respond_of_room hroom _ _ _))
  conv_lhs => rw [hs]
  refine (runFor_of_acceptAll hall rest s.taken).trans ?_
  rw [← hh]
  rfl

/-! ### The first error of a header -/

/-- The header is a command by itself that needs an initialised engine (R203). -/
def FlagTestingHeader (w : Word) : Prop :=
  decodeHeader w = .digest ∨ decodeHeader w = .update 0#60

/-- The headers that test the flag, field by field; a DIGEST with a reserved bit set is illegal first
(R205). -/
theorem flagTestingHeader_iff {w : Word} (hlegal : ¬IllegalHeader w) :
    FlagTestingHeader w ↔ opcodeOf w = 0b0011#4 ∨ (opcodeOf w = 0b0010#4 ∧ lenOf w = 0#60) := by
  constructor
  · rintro (hd | hu)
    · exact .inl ((eq_digestHeader_iff w).mp (decodeHeader_eq_digest_iff.mp hd)).1
    · exact .inr (decodeHeader_eq_update hu)
  · rintro (ho | ⟨ho, hn⟩)
    · have hbits : lenOf w = 0#60 := by
        by_contra hne
        exact hlegal ((illegalHeader_iff w).mpr (.inr (.inr (.inr ⟨ho, hne⟩))))
      exact .inl (decodeHeader_of_digest ho hbits)
    · exact .inr ((decodeHeader_of_update ho).trans (congrArg Header.update hn))

theorem acceptHeader_of_flagTestingHeader {s : State} {w : Word} (hi : s.initialised = false)
    (hw : FlagTestingHeader w) : acceptHeader w s = raise .errNotInitialised w s := by
  rcases hw with hd | hu
  · rw [acceptHeader_of_digest hd, exec_digest_notReady hi, decodeHeader_eq_digest_iff.mp hd]
  · rw [acceptHeader_of_update hu, if_pos BitVec.toNat_zero, exec_update_notReady hi]

/-- A legal header whose test of the flag, where it makes one, succeeds adds at most a digest. -/
theorem EngineCore.accept_respQ_of_legal {e e' : EngineCore} {w : Word} (he : e.accept w = some e')
    (hidle : e.seq = .idle) (hlegal : ¬IllegalHeader w)
    (hready : ¬(e.initialised = false ∧ FlagTestingHeader w)) :
    e'.respQ = e.respQ ∨ ∃ v, e'.respQ = e.respQ ++ [{ code := .digestOk, value := v }] := by
  rcases EngineCore.accept_cases he with ⟨seed, -, -, rfl⟩ |
    ⟨hdr, b, ⟨-, hd, -, -⟩ | ⟨got, hcollect, -⟩, hu⟩ | ⟨n, -, -, -, rfl⟩ |
    ⟨hdr, need, got, hcollect, -, -⟩ | ⟨-, -, -, hr⟩ | ⟨-, hd, hi, -⟩ | ⟨-, hw, -⟩
  · exact .inl rfl
  · rcases EngineCore.update_cases hu with ⟨-, rfl⟩ | ⟨hi, -⟩
    · exact .inl rfl
    · exact absurd ⟨hi, .inr hd⟩ hready
  · exact nomatch hidle.symm.trans hcollect
  · exact .inl rfl
  · exact nomatch hidle.symm.trans hcollect
  · exact .inr ⟨_, EngineCore.respond_respQ hr⟩
  · exact absurd ⟨hi, .inl hd⟩ hready
  · exact absurd hw hlegal

/-- Settles O35: an illegal header (`step_of_illegal`), a legal one that fails its test of the flag
(`acceptHeader_of_flagTestingHeader`), and any other (`EngineCore.accept_respQ_of_legal`). -/
theorem firstErrorThatHoldsIsReported : Obligations.FirstErrorThatHoldsIsReported := by
  unfold Obligations.FirstErrorThatHoldsIsReported
  intro s w rest hh hseq hc hroom op reservedOpcode reservedBits notReady
  have hillegal : reservedOpcode ∨ reservedBits ↔ IllegalHeader w :=
    or_assoc.trans (illegalHeader_iff w).symm
  by_cases hw : IllegalHeader w
  · have hstep := step_of_illegal hh hseq hc hw
    rw [if_pos hroom] at hstep
    have hfirst : ¬reservedOpcode → ¬reservedBits → False := fun hop hbits =>
      (hillegal.mpr hw).elim hop hbits
    exact ⟨_, hstep, fun _ => rfl, fun hop hbits => (hfirst hop hbits).elim,
      fun hop hbits => (hfirst hop hbits).elim⟩
  · have hflag : notReady ↔ s.initialised = false ∧ FlagTestingHeader w :=
      and_congr_right' (flagTestingHeader_iff hw).symm
    by_cases hn : notReady
    · obtain ⟨hi, htests⟩ := hflag.mp hn
      have hstep : step s = .next (s.endCommand.emit .errNotInitialised w) := by
        rw [step_of_idle hh hseq hc, acceptHeader_of_flagTestingHeader hi htests, raise_of_room hroom]
      exact ⟨_, hstep, fun h => absurd (hillegal.mp h) hw, fun _ _ _ => rfl,
        fun _ _ h => absurd hn h⟩
    · have hheld : ¬s.Held := fun ⟨_, hfull⟩ => Nat.not_lt.mpr hfull hroom
      obtain ⟨e, ha, hstep⟩ := step_of_not_held hh hc hheld
      refine ⟨_, hstep, fun h => absurd (hillegal.mp h) hw, fun _ _ h => absurd h hn,
        fun _ _ _ c v herr hv => ?_⟩
      have hv' : e.respQ = s.respQ ++ [{ code := c, value := v }] := hv
      rcases EngineCore.accept_respQ_of_legal ha hseq hw (hn ∘ hflag.mpr) with hkeep | ⟨v', hadd⟩
      · have hsame : s.respQ = s.respQ ++ [{ code := c, value := v }] := hkeep.symm.trans hv'
        simp at hsame
      · have hrecord := List.append_cancel_left (hadd.symm.trans hv')
        injection List.singleton_injective hrecord with hcode
        exact herr hcode.symm

end Sys2Proof.Machine

/-!
PROOFS. Hardware reset, back-pressure at both queues and bounded progress (70_reset_and_hazards.md R230,
R234, R235, R239).
-/

namespace Sys2Proof.Machine

/-! ### How many records a word appends -/

/-- An accepted word appends one record where `State.wouldRespond` says so, and otherwise none. -/
theorem accept_respQ_of_wouldRespond {s : State} {w : Word} {rest : List Word} {e : EngineCore}
    (hc : s.cmdIn = w :: rest) (ha : s.engine.accept w = some e) :
    (s.wouldRespond = false ∧ e.respQ = s.respQ) ∨
    (s.wouldRespond = true ∧ ∃ r, e.respQ = s.respQ ++ [r]) := by
  rcases EngineCore.accept_cases ha with ⟨seed, (hseq : s.seq = _), hd, rfl⟩ |
    ⟨hdr, b, hlast, hu⟩ | ⟨n, (hseq : s.seq = _), hd, hn, rfl⟩ |
    ⟨hdr, need, got, (hseq : s.seq = _), hn, rfl⟩ | ⟨(hseq : s.seq = _), hd, -, hr⟩ |
    ⟨(hseq : s.seq = _), hd, -, hr⟩ | ⟨(hseq : s.seq = _), hd | hd, hr⟩
  · exact .inl ⟨by simp [State.wouldRespond, hc, hseq, hd], rfl⟩
  · have hflag : s.wouldRespond = !s.initialised := by
      rcases hlast with ⟨(hseq : s.seq = _), hd, -, -⟩ | ⟨got, (hseq : s.seq = _), -⟩
      · simp [State.wouldRespond, hc, hseq, hd]
      · simp [State.wouldRespond, hc, hseq]
    rcases EngineCore.update_cases hu with ⟨(hi : s.initialised = _), rfl⟩ |
      ⟨(hi : s.initialised = _), hr⟩
    · exact .inl ⟨by simp [hflag, hi], rfl⟩
    · exact .inr ⟨by simp [hflag, hi], _, EngineCore.respond_respQ hr⟩
  · exact .inl ⟨by simp [State.wouldRespond, hc, hseq, hd, hn], rfl⟩
  · exact .inl ⟨by simp [State.wouldRespond, hc, hseq, hn], rfl⟩
  all_goals exact .inr ⟨by simp [State.wouldRespond, hc, hseq, hd], _, EngineCore.respond_respQ hr⟩

theorem State.not_held_of_room {s : State} (hroom : s.respQ.length < Config.respDepth) : ¬s.Held :=
  fun ⟨_, hfull⟩ => Nat.not_lt.mpr hfull hroom

/-! ### Words with room for every answer -/

/-- With room for one record no word is held, and it appends at most that one. -/
theorem EngineCore.accept_of_room {e : EngineCore} (hroom : e.respQ.length < Config.respDepth)
    (w : Word) : ∃ e', e.accept w = some e' ∧ e.respQ <+: e'.respQ ∧
      e'.respQ.length ≤ e.respQ.length + 1 := by
  have hheld : ¬(e.withPorts [w] [] []).Held := State.not_held_of_room hroom
  obtain ⟨e', ha, -⟩ := step_of_not_held rfl rfl hheld
  refine ⟨e', ha, ?_⟩
  rcases accept_respQ_of_wouldRespond rfl ha with ⟨-, hkeep⟩ | ⟨-, r, hadd⟩
  · rw [hkeep]
    exact ⟨List.prefix_rfl, Nat.le_succ _⟩
  · rw [hadd]
    exact ⟨List.prefix_append _ _, List.length_append.le⟩

/-- With room for one record a word, no word is held, and no record is lost. -/
theorem EngineCore.acceptAll_of_room {ws : List Word} {e : EngineCore}
    (hroom : e.respQ.length + ws.length ≤ Config.respDepth) :
    ∃ e', e.acceptAll ws = some e' ∧ e.respQ <+: e'.respQ ∧
      e'.respQ.length ≤ Config.respDepth := by
  induction ws generalizing e with
  | nil => exact ⟨e, rfl, List.prefix_rfl, hroom⟩
  | cons w ws ih =>
    rw [List.length_cons] at hroom
    obtain ⟨e₁, ha, hpre, hlen⟩ := accept_of_room (e := e) (by omega) w
    obtain ⟨e', hall, hpre', hfits⟩ := ih (e := e₁) (by omega)
    exact ⟨e', by rw [acceptAll_cons, ha, Option.bind_some, hall], hpre.trans hpre', hfits⟩

/-- Settles O45, by induction on the queued words (`EngineCore.acceptAll_of_room`), each of which takes
one step (`runFor_of_acceptAll`). -/
theorem queuedWordsAreConsumed : Obligations.QueuedWordsAreConsumed := by
  unfold Obligations.QueuedWordsAreConsumed
  intro s hh hroom
  obtain ⟨e, hall, hpre, hfits⟩ := EngineCore.acceptAll_of_room (e := s.engine) hroom
  have hs : s = s.engine.withPorts (s.cmdIn ++ []) [] s.taken := by
    rw [List.append_nil, ← hh, State.engine_withPorts]
  have hrun := runFor_of_acceptAll hall [] s.taken
  rw [← hs] at hrun
  exact ⟨_, hrun, rfl, hpre, hfits⟩

/-! ### A held step -/

/-- With room, a word that is to answer is accepted and appends its record. -/
theorem step_of_wouldRespond_of_room {s : State} (hh : s.host = []) (hw : s.wouldRespond = true)
    (hroom : s.respQ.length < Config.respDepth) :
    ∃ (e : EngineCore) (r : Resp), step s = .next (e.withPorts s.cmdIn.tail [] s.taken) ∧
      e.respQ = s.respQ ++ [r] := by
  rcases hc : s.cmdIn with _ | ⟨w, rest⟩
  · simp [State.wouldRespond, hc] at hw
  · obtain ⟨e, ha, hstep⟩ := step_of_not_held hh hc (State.not_held_of_room hroom)
    rcases accept_respQ_of_wouldRespond hc ha with ⟨hno, -⟩ | ⟨-, r, hadd⟩
    · exact absurd (hw.symm.trans hno) (by decide)
    · exact ⟨e, r, hstep, hadd⟩

/-- Settles O40: a held step answers the same state (`step_of_held`), and after the host's take the word
that was held still is to answer and has room (`step_of_wouldRespond_of_room`). -/
theorem fullResponseQueueHoldsTheStep : Obligations.FullResponseQueueHoldsTheStep := by
  unfold Obligations.FullResponseQueueHoldsTheStep
  intro s hheld
  refine ⟨fun hh => runFor_of_step_self (step_of_held hh hheld), fun r q hh hq hfull => ?_⟩
  have htake := takeRemovesTheHeadRecord s [] r q hh hq
  have hroom : q.length < Config.respDepth := by
    rw [hq, List.length_cons] at hfull
    omega
  obtain ⟨hanswers, -⟩ := hheld
  obtain ⟨e, r', hstep, hadd⟩ := step_of_wouldRespond_of_room
    (s := { s with host := [], respQ := q, taken := s.taken ++ [r] }) rfl hanswers hroom
  exact ⟨_, r', (runFor_succ htake).trans (runFor_one hstep), hadd, rfl, rfl⟩

/-! ### The moves of the host -/

/-- What the host plans only rides along with the engine's step. -/
theorem engineStep_of_host (s : State) :
    ∃ t : State, ∀ l, engineStep { s with host := l } = .next { t with host := l } := by
  rcases hc : s.cmdIn with _ | ⟨w, rest⟩
  · exact ⟨s.engine.withPorts [] [] s.taken, fun l => engineStep_of_empty rfl⟩
  · cases ha : s.engine.accept w with
    | none =>
      exact ⟨s.engine.withPorts (w :: rest) [] s.taken, fun l =>
        engineStep_of_held ha rest l s.taken⟩
    | some e =>
      exact ⟨e.withPorts rest [] s.taken, fun l => engineStep_of_accept ha rest l s.taken⟩

/-- Settles O42, with room (`step_of_send_room`) and without, where the waiting host only rides along
(`engineStep_of_host`). -/
theorem sentWordWaitsForRoom : Obligations.SentWordWaitsForRoom := by
  unfold Obligations.SentWordWaitsForRoom
  intro s w rest hh
  refine ⟨step_of_send_room hh, fun hfull => ?_⟩
  obtain ⟨t, ht⟩ := engineStep_of_host s
  exact ⟨{ t with host := [] }, (step_of_quiet rfl).trans (ht []),
    (step_of_send_full hh hfull).trans (ht s.host)⟩

/-- Settles O46, by `step_of_rst` and the fields of a reset state; the two outcomes for the queued words
are the two values of `Config.resetDropsQueuedWords`. -/
theorem hardwareResetIsOneStep : Obligations.HardwareResetIsOneStep := by
  unfold Obligations.HardwareResetIsOneStep
  intro s rest hh
  refine ⟨_, step_of_rst hh, rfl, rfl, rfl, rfl, rfl, ?_⟩
  rw [State.hardwareReset_cmdIn]
  cases Config.resetDropsQueuedWords with
  | true => exact .inl rfl
  | false => exact .inr rfl

end Sys2Proof.Machine

/-!
PROOFS. The state after reset (10_state.md R39), and a command placed by its words (30_encoding.md R71 to
R85).
-/

namespace Sys2Proof.Machine

/-- Settles O49: the blank hashing fields hold no byte (`HashState.blank_tracked`), no payload is open,
and both queues are empty. -/
theorem resetMeetsTheInvariant : Obligations.ResetMeetsTheInvariant := by
  unfold Obligations.ResetMeetsTheInvariant
  exact (State.Inv_iff _).mpr
    ⟨⟨HashState.blank_tracked, trivial, Nat.zero_le _⟩, Nat.zero_le _⟩

/-! ### A chunk up to its last beat -/

/-- Each beat brings eight more bytes of the chunk (R78). -/
theorem chunkOf_add_beat (k : Nat) (d : Nat → Word) :
    chunkOf (8 * k + 8) d = chunkOf (8 * k) d ++ beatBytes (d k) := by
  have hbeat : ∀ i ∈ List.range 8,
      beatByte (d ((8 * k + i) / 8)) ((8 * k + i) % 8) = beatByte (d k) i := fun i hi => by
    rw [List.mem_range] at hi
    rw [show (8 * k + i) / 8 = k by omega, show (8 * k + i) % 8 = i by omega]
  rw [chunkOf, List.range_add, List.map_append, List.map_map]
  exact congrArg _ (List.map_congr_left hbeat)

theorem take_chunkOf {m n : Nat} (h : n ≤ m) (d : Nat → Word) :
    (chunkOf m d).take n = chunkOf n d := by
  rw [chunkOf, ← List.map_take, List.take_range, Nat.min_eq_left h, chunkOf]

/-- The last beat completes the chunk, and its padding is dropped (R79). -/
theorem take_chunkOf_append_last_beat {n k : Nat} (h : beatCount n = k + 1) (d : Nat → Word) :
    (chunkOf (8 * k) d ++ beatBytes (d k)).take n = chunkOf n d := by
  rw [beatCount] at h
  rw [← chunkOf_add_beat, take_chunkOf (by omega)]

/-! ### The last word of a command that decodes -/

/-- Only an UPDATE's header is followed by beats, as many as its length needs (R81). -/
theorem decodeHeader_of_beats {w : Word} {k : Nat} (h : payloadBeats w = k + 1) :
    decodeHeader w = .update (lenOf w) ∧ beatCount (lenOf w).toNat = k + 1 := by
  cases hd : decodeHeader w with
  | update n =>
    obtain ⟨-, rfl⟩ := decodeHeader_eq_update hd
    exact ⟨rfl, by simpa only [payloadBeats, hd] using h⟩
  | init | digest | reservedOpcode | reservedBits => simp [payloadBeats, hd] at h

/-- A header without beats is all of the command it decodes to, and runs it (R85). -/
theorem acceptHeader_of_decodeWith {w : Word} {d : Nat → Word} {i : Instr}
    (h : decodeWith w d = some i) (hbeats : payloadBeats w = 0) (s : State) :
    acceptHeader w s = exec i s := by
  obtain ⟨hw, beats, he, hlen⟩ := encode_of_decodeWith h
  obtain rfl : beats = [] := List.eq_nil_of_length_eq_zero (hlen.trans hbeats)
  exact acceptHeader_of_encode hw he s

/-- The last beat runs the UPDATE that the header and all its beats decode to (R85). -/
theorem acceptBeat_of_decodeWith {w : Word} {d : Nat → Word} {i : Instr} {k : Nat}
    (h : decodeWith w d = some i) (hbeats : payloadBeats w = k + 1) (s : State) :
    acceptBeat w 1 (chunkOf (8 * k) d) (d k) s = exec i s := by
  obtain ⟨hd, hcount⟩ := decodeHeader_of_beats hbeats
  obtain rfl : .update w (chunkOf (lenOf w).toNat d) = i := by
    simpa only [decodeWith, hd, Option.some.injEq] using h
  rw [acceptBeat, if_pos rfl, take_chunkOf_append_last_beat hcount]

/-! ### Placing a command -/

theorem placeCommand_of_no_beats {w : Word} (h : payloadBeats w = 0) (d : Nat → Word) (s : State) :
    placeCommand w d s = { s with host := [], seq := .idle, cmdIn := w :: s.cmdIn.tail } :=
  if_pos h

theorem placeCommand_of_beats {w : Word} {k : Nat} (h : payloadBeats w = k + 1) (d : Nat → Word)
    (s : State) : placeCommand w d s = { s with
      host := [], seq := .collect w 1 (chunkOf (8 * k) d), cmdIn := d k :: s.cmdIn.tail } := by
  simp [placeCommand, h]

theorem step_placeCommand {w : Word} {d : Nat → Word} {i : Instr} (h : decodeWith w d = some i)
    (s : State) : step (placeCommand w d s) = exec i (placeCommand w d s) := by
  cases hbeats : payloadBeats w with
  | zero =>
    rw [placeCommand_of_no_beats hbeats]
    exact (step_of_idle rfl rfl rfl).trans (acceptHeader_of_decodeWith h hbeats _)
  | succ k =>
    rw [placeCommand_of_beats hbeats]
    exact (step_of_collect rfl rfl rfl).trans (acceptBeat_of_decodeWith h hbeats _)

/-- Settles O9: the table word's header and beats are the ones placed (`step_placeCommand`). -/
theorem placedTableWordRunsItsCommand : Obligations.PlacedTableWordRunsItsCommand := by
  unfold Obligations.PlacedTableWordRunsItsCommand
  intro s nbits w i h
  exact step_placeCommand h s

end Sys2Proof.Machine
